-- ==== Sys2Proof/Word.lean ====
section
/-! DEFINITION. The two word types of the block: the byte of the four memories and the 32-bit register word. -/

namespace Sys2Proof

/-- A channel value or a payload byte: "each an 8-bit unsigned integer" (00_scope.md R7, `CHAN_BITS` = 8). -/
abbrev Byte := BitVec 8

/-- A register word: every register is read and written as one 32-bit unsigned word (30_encoding.md R65). -/
abbrev Word := BitVec 32

end Sys2Proof
end

