-- ==== Sys2Proof/Config.lean ====
section
/-! DEFINITION. What the implementation fixes (00_scope.md R7, R8) and the free values: what the spec leaves open. -/

namespace Sys2Proof

/-- The four data memories (20_memory.md R40). -/
inductive Space where
  | pixIn
  | pixOut
  | payIn
  | payOut
deriving DecidableEq, Repr

/-- The sequencer cursor `(p, n, i)` (10_state.md R21): pixel index in raster order, channel index within the pixel,
global bit cursor. Exact naturals: no rule lets one of them wrap (41_sequencer.md R104). -/
structure Cursor where
  p : Nat
  n : Nat
  i : Nat
deriving DecidableEq, Repr, Inhabited

/-- `CAP_POLICY`: what ENCODE does when the frame exceeds the capacity (00_scope.md R8). -/
inductive CapPolicy where
  | strict
  | permissive
deriving DecidableEq, Repr

/-- The build parameters that a model takes as arguments (00_scope.md R7). A memory size of `none` is a memory without a
bound, with which the size parameter drops out of the model (93_implementation_defined.md U5). -/
structure Config where
  capPolicy : CapPolicy
  pixMemSize : Option Nat
  payMemSize : Option Nat
deriving DecidableEq, Repr

namespace Config

/-- This hardware: `CAP_POLICY` = STRICT (00_scope.md R8). The two OPEN sizes take no bound
(93_implementation_defined.md U5). DESIGN CHOICE, log 7. -/
def hardware : Config := ⟨.strict, none, none⟩

/-- `size` locations hold addresses `0 .. extent − 1` (20_memory.md R54). -/
def holds (size : Option Nat) (extent : Nat) : Bool :=
  match size with
  | none => true
  | some n => decide (extent ≤ n)

/-- Width of one channel value, `CHAN_BITS` (00_scope.md R7). -/
def chanBits : Nat := 8

/-- Width of the length field at the start of the frame, `LEN_BITS` (00_scope.md R7). -/
def lenBits : Nat := 32

/-- The largest payload length in bytes, `L_MAX` (00_scope.md R7). -/
def lMax : Nat := 2 ^ 32 - 1

/-- Width of WIDTH and HEIGHT, `DIMW` (00_scope.md R7). -/
def dimW : Nat := 32

/-- Width of the PCC and CHANNELS fields, `CHW` (00_scope.md R7). -/
def chW : Nat := 8

/-- The largest capacity of any grid, `(2^DIMW − 1)^2 * (2^CHW − 1)` (10_state.md R20, 41_sequencer.md R104): a position
at or beyond it exists in no grid. -/
def maxCapacity : Nat := (2 ^ dimW - 1) * (2 ^ dimW - 1) * (2 ^ chW - 1)

/-- FREE VALUE: the byte at an address that nothing has written since the last reset, "any 8-bit value (a free input)",
one draw per location per reset (20_memory.md R45, 93_implementation_defined.md U4, U8). The first argument counts the
resets. Log 6. -/
opaque unwrittenByte : Nat → Space → Nat → Byte

/-- FREE VALUE: BITS once a command has ended, "its content after a command is not defined" (10_state.md R20). Log 5. -/
opaque freeBits : Nat → List Bool

/-- FREE VALUE: the sequencer cursor once a command has ended (60_exceptions.md R166, 93_implementation_defined.md U9).
Log 5. -/
opaque freeCursor : Nat → Cursor

/-- FREE VALUE: LEN once a command has ended (60_exceptions.md R166, 93_implementation_defined.md U9). Log 5. -/
opaque freeLen : Nat → Word

/-- FREE VALUE: the byte assembly register once a command has ended (60_exceptions.md R166,
93_implementation_defined.md U9). Log 5. -/
opaque freeAsm : Nat → Byte

/-- FREE VALUE: the triple `(p, n, a)` of SEQ run on its own for a position outside the domain that its rule states a
result for (41_sequencer.md R101). DESIGN CHOICE, log 10. -/
opaque freePlace : Nat → Nat × Nat × Nat

end Config

end Sys2Proof
end

