-- ==== Sys2Proof/Syntax.lean ====
section
/-! DEFINITION. The operations of the block (30_encoding.md R74): one constructor per row of spec/opcode_table.json. -/

namespace Sys2Proof

/-- The seven operations. ENCODE and DECODE are the two the host can issue; the other five are internal: functions the
two commands use, with no bit pattern of their own (30_encoding.md R74, 92_eei_decisions.md D2). Operands that a rule
takes from registers or memories are not part of the syntax (30_encoding.md R72: "There are no immediates in the command
word"). -/
inductive Instr where
  /-- ENCODE (42_bitplanewriter.md R121). -/
  | encode
  /-- DECODE (43_bitplanereader.md R141). -/
  | decode
  /-- FRAME, internal (40_bitframing.md R82): the payload of PLEN bytes in PAY_IN to BITS. -/
  | frame
  /-- UNFRAME, internal (40_bitframing.md R85): BITS to a length and PAY_OUT. -/
  | unframe
  /-- SEQ, internal (41_sequencer.md R101): the place of position `i`. -/
  | seq (i : Nat)
  /-- LSBSET, internal (41_sequencer.md R106): `v` with its lowest bit set to `b`. -/
  | lsbset (v : Byte) (b : Bool)
  /-- LSBGET, internal (41_sequencer.md R107): the lowest bit of `v`. -/
  | lsbget (v : Byte)
deriving DecidableEq, Repr

end Sys2Proof
end

