-- ==== Sys2Proof/WellFormed.lean ====
section
/-! DEFINITION. Which terms of Instr are operations of the block. -/

namespace Sys2Proof

/-- A position of SEQ exists in some grid: it is below the largest capacity (41_sequencer.md R101, R104). Every other
operation is well formed whatever its operands: ENCODE and DECODE have none, a byte and a bit have no illegal value
(41_sequencer.md R106, R107: total on `0 .. 255`). -/
def Instr.wellFormed (i : Instr) : Bool :=
  match i with
  | .encode => true
  | .decode => true
  | .frame => true
  | .unframe => true
  | .seq i => decide (i < Config.maxCapacity)
  | .lsbset _ _ => true
  | .lsbget _ => true

end Sys2Proof
end

