-- ==== Sys2Proof/Decode.lean ====
section
/-! DEFINITION. The CMD word (30_encoding.md R66, R70): decoder, encoder, and the opcode table's rows. -/

namespace Sys2Proof

/-- A row of the opcode map: a written word `c` selects the row when `c & mask = pattern` (30_encoding.md R66). -/
structure OpcodeRow where
  pattern : Word
  mask : Word
  instr : Instr
deriving DecidableEq, Repr

/-- "These two rows are the whole opcode map" (30_encoding.md R66). The five internal operations have no row a decoder
uses (30_encoding.md R74). -/
def opcodeMap : List OpcodeRow :=
  [⟨0x00000000#32, 0x00000001#32, .encode⟩, ⟨0x00000001#32, 0x00000001#32, .decode⟩]

/-- The word `c` selects the row `r`. -/
def OpcodeRow.selects (r : OpcodeRow) (c : Word) : Bool :=
  c &&& r.mask == r.pattern

/-- The command that a word written to CMD starts: bit 0 is OP, 0 selects ENCODE and 1 selects DECODE, bits 31:1 are
ignored; all 2^32 values are legal (30_encoding.md R66, R70). -/
def decodeWord (c : Word) : Instr :=
  if c.getLsbD 0 then .decode else .encode

/-- Why the decoder takes no instruction from a number. -/
inductive DecodeError where
  /-- The number has a bit above bit 31: a command word has one fixed length, 32 bits (30_encoding.md R71). -/
  | widerThanCommandWord
deriving DecidableEq, Repr

/-- The decoder on any number: a command word is 32 bits, and a number that does not fit is no command word. -/
def decode (w : Nat) : Except DecodeError Instr :=
  if w < 2 ^ 32 then .ok (decodeWord (BitVec.ofNat 32 w)) else .error .widerThanCommandWord

/-- The OP bit of a command; an internal operation has none (30_encoding.md R66, R74). -/
def Instr.opBit (i : Instr) : Option Bool :=
  match i with
  | .encode => some false
  | .decode => some true
  | .frame => none
  | .unframe => none
  | .seq _ => none
  | .lsbset _ _ => none
  | .lsbget _ => none

/-- The words of an operation: OP in bit 0 and, in bits 31:1, any value at all, given here as `ignored`
(30_encoding.md R66). An internal operation has no word. -/
def encode (ignored : BitVec 31) (i : Instr) : Option Word :=
  i.opBit.map fun op => ignored ++ BitVec.ofBool op

/-- What the decoder reads from an instruction whose bits are `w`, numbered as spec/opcode_table.json numbers them: bit
0 is the least significant bit, as in the CMD word (30_encoding.md R66). Bits at and above `nbits` are 0. -/
def decodeTableWord (nbits w : Nat) : Option Instr :=
  match decode (w % 2 ^ nbits) with
  | .ok i => some i
  | .error _ => none

end Sys2Proof
end

