-- ==== Sys2Proof/Machine/State.lean ====
section
/-! DEFINITION. The state of the block (10_state.md R10), its reset value (R26), and the reasons a step can stop. -/

namespace Sys2Proof.Machine

/-- A byte memory: a list of (address, byte) pairs, addresses strictly rising (`Memory.wf` in Ops.lean). An address that
is not listed has no listed value: nothing has written it since the last reset (20_memory.md R45, log 6). -/
abbrev Memory := List Host.Cell

/-- One transaction of the host with the block (30_encoding.md R73, 92_eei_decisions.md D1). -/
inductive HostAction where
  /-- A register write of `bytes` bytes at a byte offset within the register block; `WR` is the one of 4 bytes. -/
  | writeReg (offset bytes : Nat) (value : Word)
  /-- A register read of `bytes` bytes at a byte offset within the register block; `RD` is the one of 4 bytes. -/
  | readReg (offset bytes : Nat)
  /-- A write of one byte of a memory; `MW` is one for each of its bytes. -/
  | writeMem (space : Space) (addr : Nat) (value : Byte)
  /-- A read of one byte of a memory; `MR` is one for each of its bytes. -/
  | readMem (space : Space) (addr : Nat)
  /-- The host reads PIX_OUT at an address and writes the byte to PIX_IN at the same address; `COPY` is one for each
  address. -/
  | copyPixel (addr : Nat)
  /-- Reset, applied from outside at any time (70_reset_and_hazards.md R190, section 4). -/
  | reset
deriving DecidableEq, Repr

/-- What a host read returned: a register word or a memory byte. -/
inductive HostValue where
  | word (v : Word)
  | byte (v : Byte)
deriving DecidableEq, Repr

/-- What an internal operation run on its own returned: its rule gives a result and the block has no register for it.
The model's own, log 3. -/
inductive OpResult where
  /-- UNFRAME: "return length" (40_bitframing.md R85). -/
  | length (v : Word)
  /-- SEQ: the triple `(p, n, a)` (41_sequencer.md R101). -/
  | place (p n a : Nat)
  /-- LSBSET: "Result: a byte" (41_sequencer.md R106). -/
  | byte (v : Byte)
  /-- LSBGET: "Result: a bit" (41_sequencer.md R107). -/
  | bit (b : Bool)
deriving DecidableEq, Repr

/-- The state of the block: the registers, the four memories and the internal working state (10_state.md R10), then the
model's own fields. CMD stores nothing (10_state.md R11) and has no field. -/
structure State where
  /-- STATUS (10_state.md R12). -/
  status : Word
  /-- WIDTH, `W` (10_state.md R13). -/
  width : Word
  /-- HEIGHT, `H` (10_state.md R14). -/
  height : Word
  /-- PCC, `C`: bits 7:0; bits 31:8 are reserved and hold nothing (10_state.md R15, log 14). -/
  pcc : Byte
  /-- CHANNELS, `k`: bits 7:0; bits 31:8 are reserved and hold nothing (10_state.md R16, log 14). -/
  channels : Byte
  /-- PLEN, `L` (10_state.md R17). -/
  plen : Word
  /-- RLEN (10_state.md R18). -/
  rlen : Word
  /-- PIX_IN (20_memory.md R41). -/
  pixIn : Memory
  /-- PIX_OUT (20_memory.md R42). -/
  pixOut : Memory
  /-- PAY_IN (20_memory.md R43). -/
  payIn : Memory
  /-- PAY_OUT (20_memory.md R44). -/
  payOut : Memory
  /-- BITS, the bit sequence, position 0 first (10_state.md R20). -/
  bits : List Bool
  /-- The sequencer cursor (10_state.md R21). -/
  cursor : Cursor
  /-- LEN, the length register (10_state.md R22). -/
  len : Word
  /-- The byte assembly register (10_state.md R23). -/
  asm : Byte
  /-- The model's own: the host's transactions not yet performed, oldest first (log 1). -/
  hostQueue : List HostAction
  /-- The model's own: what the host's last read returned (log 2). -/
  readData : Option HostValue
  /-- The model's own: what the last internal operation run on its own returned (log 3). -/
  opResult : Option OpResult
  /-- The model's own: how many resets have been applied; it selects the free contents of unwritten memory (log 6). -/
  resets : Nat
  /-- The model's own: how many times a command has left the working state undefined, or SEQ has been asked for a result
  that no rule states; it selects the free values (logs 5, 10). -/
  draws : Nat
deriving DecidableEq, Repr

/-- The machine right after reset (10_state.md R26): every register 0, BITS empty, nothing listed in any memory. The
cursor, LEN and the byte assembly register are "unspecified" there: zero is a DESIGN CHOICE (log 9), and so are the
initial values of the model's own fields (logs 1, 2, 3, 5, 6). -/
def State.reset : State where
  status := 0
  width := 0
  height := 0
  pcc := 0
  channels := 0
  plen := 0
  rlen := 0
  pixIn := []
  pixOut := []
  payIn := []
  payOut := []
  bits := []
  cursor := ⟨0, 0, 0⟩
  len := 0
  asm := 0
  hostQueue := []
  readData := none
  opResult := none
  resets := 0
  draws := 0

/-- The faults: there are none. No operation of the block stops: the errors it reports (60_exceptions.md R161) end a
command with a next state, and a result that no rule states is a free value (log 10). -/
inductive Fault where
deriving DecidableEq, Repr

/-- The refusals: what the spec gives no meaning. -/
inductive Refusal where
  /-- An instruction that has no meaning yet, by its mnemonic. No arm of exec answers so. Safe. -/
  | notModelled (mnemonic : String)
  /-- Raised by the host port: a host access other than a STATUS read or a CMD write while STATUS.BUSY = 1
  (70_reset_and_hazards.md R198, 93_implementation_defined.md U1, U14). Safe (log 11). -/
  | busyAccess
  /-- Raised by the host port: a register access narrower than 32 bits, or not aligned within the register block
  (10_state.md R19, 93_implementation_defined.md U7). Safe (log 12). -/
  | narrowRegisterAccess
  /-- Raised by a command under a configuration with bounded memories when its footprint exceeds PIX_MEM_SIZE or
  PAY_MEM_SIZE (20_memory.md R54, 93_implementation_defined.md U5). Safe (log 7). -/
  | exceedsMemory
deriving DecidableEq, Repr

end Sys2Proof.Machine
end

