-- ==== Sys2Proof/Machine/Flags.lean ====
section
/-! DEFINITION. The STATUS word (10_state.md R12) and the error codes it carries (60_exceptions.md R161). -/

namespace Sys2Proof.Machine

/-- The source's error taxonomy (60_exceptions.md R160, R161). `channelCountMismatch` has a code and is never raised
(60_exceptions.md R165). -/
inductive CodecError where
  | capacityExceeded
  | channelCountMismatch
  | truncatedFrame
  | invalidChannelCount
deriving DecidableEq, Repr

/-- ECODE of each error (60_exceptions.md R161). -/
def CodecError.code (e : CodecError) : Word :=
  match e with
  | .capacityExceeded => 1
  | .channelCountMismatch => 2
  | .truncatedFrame => 3
  | .invalidChannelCount => 4

/-- STATUS while a command runs: BUSY = 1, all else 0 (30_encoding.md R67). -/
def statusRunning : Word := 0x00000001#32

/-- STATUS after a normal end: DONE = 1, all else 0 (60_exceptions.md R167). -/
def statusComplete : Word := 0x00000002#32

/-- STATUS after an error: `0x00000006 | (code << 4)` (60_exceptions.md R166). -/
def statusError (e : CodecError) : Word := 0x00000006#32 ||| (e.code <<< 4)

/-- STATUS.BUSY, bit 0 (10_state.md R12). -/
def State.busy (s : State) : Bool := s.status.getLsbD 0

/-- STATUS.DONE, bit 1 (10_state.md R12). -/
def State.done (s : State) : Bool := s.status.getLsbD 1

/-- STATUS.ERR, bit 2 (10_state.md R12). -/
def State.err (s : State) : Bool := s.status.getLsbD 2

/-- STATUS.ECODE, bits 7:4 (10_state.md R12). -/
def State.ecode (s : State) : Nat := (s.status >>> 4).toNat % 16

end Sys2Proof.Machine
end

