-- ==== Sys2Proof/Machine/Ops.lean ====
section
/-! DEFINITION. The named operations over memories and registers, and the two ways a command ends. -/

namespace Sys2Proof.Machine

/-- The canonical form of a memory: addresses strictly rising. An unlisted address has no listed value, so no entry can
equal what one reads as. -/
abbrev Memory.wf (m : Memory) : Prop := m.Pairwise fun x y => x.1 < y.1

/-- The byte listed at address `a`, if any. -/
def Memory.byteAt (m : Memory) (a : Nat) : Option Byte :=
  match m with
  | [] => none
  | (a', b) :: rest => if a' = a then some b else Memory.byteAt rest a

/-- The memory with the byte `b` at address `a`, every other location as before (20_memory.md R49). -/
def Memory.put (m : Memory) (a : Nat) (b : Byte) : Memory :=
  match m with
  | [] => [(a, b)]
  | (a', b') :: rest =>
    if a < a' then (a, b) :: (a', b') :: rest
    else if a = a' then (a, b) :: rest
    else (a', b') :: Memory.put rest a b

/-- One of the four memories (20_memory.md R40). -/
def State.mem (s : State) (sp : Space) : Memory :=
  match sp with
  | .pixIn => s.pixIn
  | .pixOut => s.pixOut
  | .payIn => s.payIn
  | .payOut => s.payOut

/-- The state with one of the four memories replaced. -/
def State.setMem (s : State) (sp : Space) (m : Memory) : State :=
  match sp with
  | .pixIn => { s with pixIn := m }
  | .pixOut => { s with pixOut := m }
  | .payIn => { s with payIn := m }
  | .payOut => { s with payOut := m }

/-- `MemRead(SPACE, a)`: the last byte written at `a`; where nothing has been written since the last reset, any 8-bit
value, one draw per location per reset (20_memory.md R45, R49, log 6). -/
def State.readByte (s : State) (sp : Space) (a : Nat) : Byte :=
  (Memory.byteAt (s.mem sp) a).getD (Config.unwrittenByte s.resets sp a)

/-- `MemWrite(SPACE, a, v)`: a write changes that location only (20_memory.md R49). -/
def State.writeByte (s : State) (sp : Space) (a : Nat) (b : Byte) : State :=
  s.setMem sp (Memory.put (s.mem sp) a b)

/-- The eight registers by name (10_state.md R10). -/
inductive Reg where
  | cmd
  | status
  | width
  | height
  | pcc
  | channels
  | plen
  | rlen
deriving DecidableEq, Repr

/-- The index of a register; its byte offset is four times that (10_state.md R10). -/
def Reg.index (r : Reg) : Nat :=
  match r with
  | .cmd => 0
  | .status => 1
  | .width => 2
  | .height => 3
  | .pcc => 4
  | .channels => 5
  | .plen => 6
  | .rlen => 7

/-- The register with an index; indices 8 and above do not exist (10_state.md R19). -/
def Reg.ofIndex (i : Nat) : Option Reg :=
  match i with
  | 0 => some .cmd
  | 1 => some .status
  | 2 => some .width
  | 3 => some .height
  | 4 => some .pcc
  | 5 => some .channels
  | 6 => some .plen
  | 7 => some .rlen
  | _ => none

/-- What a host read of a register returns: CMD reads 0 (10_state.md R11), PCC and CHANNELS read 0 in bits 31:8
(R15, R16), the others read what they hold (R12 to R14, R17, R18). -/
def State.readRegister (s : State) (r : Reg) : Word :=
  match r with
  | .cmd => 0
  | .status => s.status
  | .width => s.width
  | .height => s.height
  | .pcc => s.pcc.setWidth 32
  | .channels => s.channels.setWidth 32
  | .plen => s.plen
  | .rlen => s.rlen

/-- What a host write of a register stores: PCC and CHANNELS take bits 7:0 (10_state.md R15, R16); STATUS and RLEN
ignore writes (R12, R18); CMD stores nothing (R11), the command it starts is `hostWriteRegister`'s affair. -/
def State.writeRegister (s : State) (r : Reg) (v : Word) : State :=
  match r with
  | .cmd => s
  | .status => s
  | .width => { s with width := v }
  | .height => { s with height := v }
  | .pcc => { s with pcc := v.setWidth 8 }
  | .channels => { s with channels := v.setWidth 8 }
  | .plen => { s with plen := v }
  | .rlen => s

/-- The start of a command: STATUS is 1, BITS is empty, the cursor is at (0, 0, 0) (30_encoding.md R67). -/
def startCommand (s : State) : State :=
  { s with status := statusRunning, bits := [], cursor := ⟨0, 0, 0⟩ }

/-- The end of a command leaves the working state undefined: BITS, the cursor, LEN and the byte assembly register take
free values (10_state.md R20, 60_exceptions.md R166, 93_implementation_defined.md U9, log 5). -/
def releaseWorking (s : State) : State :=
  { s with
    bits := Config.freeBits s.draws
    cursor := Config.freeCursor s.draws
    len := Config.freeLen s.draws
    asm := Config.freeAsm s.draws
    draws := s.draws + 1 }

/-- `raise <Error>`: error entry. STATUS takes the error's word and nothing else the host can see is written; there is
no handler, no vector, no saved address and no mode (60_exceptions.md R166). -/
def raise (e : CodecError) (s : State) : State :=
  releaseWorking { s with status := statusError e }

/-- `complete`: normal end (60_exceptions.md R167). It is also all there is by way of return: "There is nothing to
return from", after either end the block is idle (60_exceptions.md R171). -/
def complete (s : State) : State :=
  releaseWorking { s with status := statusComplete }

/-- Reset (70_reset_and_hazards.md R191): every register at its reset value, BITS empty, the memories unspecified, which
is a new draw of their contents (log 6). What belongs to the host and not to the block is kept: its pending
transactions, what it last read, and the model's draw counters (log 13). -/
def applyReset (s : State) : State :=
  { State.reset with
    hostQueue := s.hostQueue
    readData := s.readData
    opResult := s.opResult
    resets := s.resets + 1
    draws := s.draws }

end Sys2Proof.Machine
end

