-- ==== Sys2Proof/Machine/Operands.lean ====
section
/-! DEFINITION. The operands of a command and the quantities computed from them, all exact naturals. -/

namespace Sys2Proof.Machine

/-- The operands of a command: the values WIDTH, HEIGHT, PCC, CHANNELS, PLEN hold at the write of CMD, as unsigned
numbers (20_memory.md R53, 30_encoding.md R72). -/
structure Operands where
  W : Nat
  H : Nat
  C : Nat
  k : Nat
  L : Nat
deriving DecidableEq, Repr

/-- The operands are sampled once, at command start (30_encoding.md R67). -/
def State.operands (s : State) : Operands :=
  ⟨s.width.toNat, s.height.toNat, s.pcc.toNat, s.channels.toNat, s.plen.toNat⟩

/-- `N = W*H`, the number of pixels (00_scope.md section 5). -/
def Operands.pixels (o : Operands) : Nat := o.W * o.H

/-- `cap = W*H*k`, the capacity in bits (41_sequencer.md R103). -/
def Operands.cap (o : Operands) : Nat := o.W * o.H * o.k

/-- `W*H*C`, the number of bytes of the grid (20_memory.md R41). -/
def Operands.gridBytes (o : Operands) : Nat := o.W * o.H * o.C

/-- `32 + 8*L` for a payload of `L` bytes, never modulo a power of two (40_bitframing.md R84). -/
def frameLength (L : Nat) : Nat := 32 + 8 * L

/-- `F`, the framed bit length (40_bitframing.md R84). -/
def Operands.frameBits (o : Operands) : Nat := frameLength o.L

/-- The channel count check: `k = 0` or `k > C` (60_exceptions.md R162). -/
def Operands.invalidChannels (o : Operands) : Bool := o.k == 0 || decide (o.C < o.k)

/-- The capacity check: `32 + 8*L > W*H*k` (42_bitplanewriter.md R124). -/
def Operands.exceedsCapacity (o : Operands) : Bool := decide (o.cap < o.frameBits)

end Sys2Proof.Machine
end

