-- ==== Sys2Proof/Machine/BitFraming.lean ====
section
/-! DEFINITION. BitFraming (40_bitframing.md): FRAME and UNFRAME. -/

namespace Sys2Proof.Machine

/-- `bits_be(v, N)`: element `i` is `v[N−1−i]`, the most significant bit first (00_scope.md section 6). -/
def bitsBE (n v : Nat) : List Bool := (List.range n).map fun i => v.testBit (n - 1 - i)

/-- `val_be(s)`: the number whose big-endian bit sequence is `s` (00_scope.md section 6). -/
def valBE (s : List Bool) : Nat := s.foldl (fun acc b => 2 * acc + b.toNat) 0

/-- FRAMEBIT, the closed form of the frame at position `i < 32 + 8*L` (40_bitframing.md R83); `pay j` is payload byte
`j`. -/
def frameBit (L : Nat) (pay : Nat → Byte) (i : Nat) : Bool :=
  if i < 32 then L.testBit (31 - i) else (pay ((i - 32) / 8)).getLsbD (7 - (i - 32) % 8)

/-- One payload byte of FRAME: it is read into the byte assembly register and its eight bits are appended, most
significant first (40_bitframing.md R82). -/
def appendPayloadByte (s : State) (j : Nat) : State :=
  let b := s.readByte .payIn j
  { s with asm := b, bits := s.bits ++ bitsBE 8 b.toNat }

/-- FRAME(L): BITS is the 32-bit big-endian length and then the payload bytes in original order; LEN is `L`
(40_bitframing.md R82). -/
def frameOp (L : Word) (s : State) : State :=
  (List.range L.toNat).foldl appendPayloadByte { s with bits := bitsBE 32 L.toNat, len := L }

/-- One payload byte of UNFRAME: eight bits from position `32 + 8*j`, most significant first, into the byte assembly
register and then to PAY_OUT (40_bitframing.md R85). -/
def extractPayloadByte (s : State) (j : Nat) : State :=
  let b := BitVec.ofNat 8 (valBE ((s.bits.drop (32 + 8 * j)).take 8))
  { s with asm := b }.writeByte .payOut j b

/-- UNFRAME over BITS: fewer than 32 bits, or fewer than `32 + 8*length`, is TruncatedFrame before any write; else LEN
is the length and PAY_OUT takes the payload (40_bitframing.md R85, R86, R87). -/
def unframeOp (s : State) : Except CodecError State :=
  if s.bits.length < 32 then .error .truncatedFrame
  else
    let length := valBE (s.bits.take 32)
    if s.bits.length < frameLength length then .error .truncatedFrame
    else .ok ((List.range length).foldl extractPayloadByte { s with len := BitVec.ofNat 32 length })

/-- FRAME run on its own, over the length PLEN holds (40_bitframing.md R82). It writes no flag and cannot fail. -/
def execFrame (s : State) : Host.Outcome State Fault Refusal :=
  .next (frameOp s.plen s)

/-- UNFRAME run on its own, over BITS. Its result is the length, left in LEN and returned; RLEN is DECODE's to write
(40_bitframing.md R85, 10_state.md R18, R22, log 15). TruncatedFrame enters the error as in a command (log 16). -/
def execUnframe (s : State) : Host.Outcome State Fault Refusal :=
  match unframeOp s with
  | .error e => .next (raise e s)
  | .ok t => .next { t with opResult := some (.length t.len) }

end Sys2Proof.Machine
end

