-- ==== Sys2Proof/Machine/Sequencer.lean ====
section
/-! DEFINITION. The raster-order bit sequencer (41_sequencer.md): SEQ, its inverse POS, LSBSET, LSBGET. -/

namespace Sys2Proof.Machine

/-- Where a position of the bit sequence lies (41_sequencer.md R101). -/
structure Place where
  p : Nat
  n : Nat
  a : Nat
deriving DecidableEq, Repr

/-- The byte address of channel `n` of pixel `p` in a pixel memory: `a = p*C + n` (20_memory.md R41). -/
def pixelAddress (C p n : Nat) : Nat := p * C + n

/-- SEQ: position `i` is carried by channel `i mod k` of pixel `i div k` (41_sequencer.md R101). -/
def seqPlace (C k i : Nat) : Place := ⟨i / k, i % k, pixelAddress C (i / k) (i % k)⟩

/-- POS: the position that channel `n` of pixel `p` carries; an unselected channel carries none
(41_sequencer.md R101). -/
def posOf (k p n : Nat) : Option Nat := if n < k then some (p * k + n) else none

/-- The cursor at channel `n` of pixel `p`: the bit cursor counts the selected channels visited so far
(10_state.md R21, 41_sequencer.md R105). -/
def cursorAt (k p n : Nat) : Cursor := ⟨p, n, p * k + min n k⟩

/-- LSBSET: `v` with its lowest bit set to `b` and all higher bits preserved, `(v & 0xFE) | b` (41_sequencer.md R106). -/
def lsbSet (v : Byte) (b : Bool) : Byte := (v &&& 0xFE#8) ||| (if b then 1#8 else 0#8)

/-- LSBGET: the lowest bit of `v` (41_sequencer.md R107). -/
def lsbGet (v : Byte) : Bool := v.getLsbD 0

/-- SEQ run on its own, over the operands `C` and `k` the registers hold. Its rule states the result for the
positions that exist (`1 ≤ k ≤ C`, `i < cap`); for any other SEQ runs and its result is a free value, a new one each time
(41_sequencer.md R101, log 10). It writes no flag and has no error. -/
def execSeq (i : Nat) (s : State) : Host.Outcome State Fault Refusal :=
  let o := s.operands
  if o.invalidChannels || decide (o.cap ≤ i) then
    let q := Config.freePlace s.draws
    .next { s with opResult := some (.place q.1 q.2.1 q.2.2), draws := s.draws + 1 }
  else
    let q := seqPlace o.C o.k i
    .next { s with opResult := some (.place q.p q.n q.a) }

/-- LSBSET run on its own (41_sequencer.md R106). It writes no flag and has no error. -/
def execLsbset (v : Byte) (b : Bool) (s : State) : Host.Outcome State Fault Refusal :=
  .next { s with opResult := some (.byte (lsbSet v b)) }

/-- LSBGET run on its own (41_sequencer.md R107). It writes no flag and has no error. -/
def execLsbget (v : Byte) (s : State) : Host.Outcome State Fault Refusal :=
  .next { s with opResult := some (.bit (lsbGet v)) }

end Sys2Proof.Machine
end

