-- ==== Sys2Proof/Machine/BitPlaneReader.lean ====
section
/-! DEFINITION. BitPlaneReader (43_bitplanereader.md): the command DECODE. -/

namespace Sys2Proof.Machine

/-- One selected channel of the DECODE pass: its lowest bit is appended to BITS (43_bitplanereader.md R141). -/
def decodeChannel (o : Operands) (p : Nat) (s : State) (n : Nat) : State :=
  let v := s.readByte .pixIn (pixelAddress o.C p n)
  { s with cursor := cursorAt o.k p n, bits := s.bits ++ [lsbGet v] }

/-- One pixel of the DECODE pass: the selected channels only, channel 0 first; then the cursor is at the next pixel
(43_bitplanereader.md R141, 10_state.md R21). -/
def decodePixel (o : Operands) (s : State) (p : Nat) : State :=
  { (List.range o.k).foldl (decodeChannel o p) s with cursor := cursorAt o.k (p + 1) 0 }

/-- The DECODE pass: the pixels in the same raster order as ENCODE (43_bitplanereader.md R141). -/
def decodePass (o : Operands) (s : State) : State :=
  (List.range o.pixels).foldl (decodePixel o) s

/-- DECODE under a configuration (43_bitplanereader.md R141, R142): the channel count check, the pass, UNFRAME, then
RLEN. A command whose grid, or whose decoded payload, does not fit the memories is refused (20_memory.md R54,
93_implementation_defined.md U5). -/
def decodeWith (cfg : Config) (s : State) : Host.Outcome State Fault Refusal :=
  let o := s.operands
  let t := startCommand s
  if !Config.holds cfg.pixMemSize o.gridBytes then .refused .exceedsMemory
  else if o.invalidChannels then .next (raise .invalidChannelCount t)
  else
    match unframeOp (decodePass o t) with
    | .error e => .next (raise e t)
    | .ok u =>
      if !Config.holds cfg.payMemSize u.len.toNat then .refused .exceedsMemory
      else .next (complete { u with rlen := u.len })

/-- DECODE on this hardware (43_bitplanereader.md R141). -/
def execDecode (s : State) : Host.Outcome State Fault Refusal :=
  decodeWith Config.hardware s

end Sys2Proof.Machine
end

