-- ==== Sys2Proof/Machine/BitPlaneWriter.lean ====
section
/-! DEFINITION. BitPlaneWriter (42_bitplanewriter.md): the command ENCODE. -/

namespace Sys2Proof.Machine

/-- One channel of the ENCODE pass: a selected channel the frame reaches takes the next frame bit in its lowest bit,
every other channel is copied unmodified (42_bitplanewriter.md R121). BITS holds `F` bits, so the default of `getD` is
never taken. -/
def encodeChannel (o : Operands) (p : Nat) (s : State) (n : Nat) : State :=
  let a := pixelAddress o.C p n
  let v := s.readByte .pixIn a
  let out :=
    match posOf o.k p n with
    | some i => if i < o.frameBits then lsbSet v (s.bits.getD i false) else v
    | none => v
  { s with cursor := cursorAt o.k p n }.writeByte .pixOut a out

/-- One pixel of the ENCODE pass: every channel, channel 0 first; then the cursor is at the next pixel
(42_bitplanewriter.md R121, 10_state.md R21). -/
def encodePixel (o : Operands) (s : State) (p : Nat) : State :=
  { (List.range o.C).foldl (encodeChannel o p) s with cursor := cursorAt o.k (p + 1) 0 }

/-- The ENCODE pass: the pixels in raster order (42_bitplanewriter.md R121). -/
def encodePass (o : Operands) (s : State) : State :=
  (List.range o.pixels).foldl (encodePixel o) s

/-- The footprint of ENCODE lies within the memories (20_memory.md R54). -/
def encodeFits (cfg : Config) (o : Operands) : Bool :=
  Config.holds cfg.pixMemSize o.gridBytes && Config.holds cfg.payMemSize o.L

/-- ENCODE under a configuration (42_bitplanewriter.md R121, R122, R126): the channel count check, then under STRICT the
capacity check, then FRAME and the pass. A command started against the host's duty to stay within the memories is
refused (20_memory.md R54). -/
def encodeWith (cfg : Config) (s : State) : Host.Outcome State Fault Refusal :=
  let o := s.operands
  let t := startCommand s
  if !encodeFits cfg o then .refused .exceedsMemory
  else if o.invalidChannels then .next (raise .invalidChannelCount t)
  else if cfg.capPolicy == .strict && o.exceedsCapacity then .next (raise .capacityExceeded t)
  else .next (complete (encodePass o (frameOp s.plen t)))

/-- ENCODE on this hardware: `CAP_POLICY` = STRICT (00_scope.md R8). -/
def execEncode (s : State) : Host.Outcome State Fault Refusal :=
  encodeWith Config.hardware s

end Sys2Proof.Machine
end

