-- ==== Sys2Proof/Machine/Dispatch.lean ====
section
/-! DEFINITION. exec: one arm per operation, each a direct call of its meaning. -/

namespace Sys2Proof.Machine

def exec (i : Instr) (s : State) : Host.Outcome State Fault Refusal :=
  match i with
  | .encode => Sys2Proof.Machine.execEncode s
  | .decode => Sys2Proof.Machine.execDecode s
  | .frame => Sys2Proof.Machine.execFrame s
  | .unframe => Sys2Proof.Machine.execUnframe s
  | .seq pos => Sys2Proof.Machine.execSeq pos s
  | .lsbset v b => Sys2Proof.Machine.execLsbset v b s
  | .lsbget v => Sys2Proof.Machine.execLsbget v s

end Sys2Proof.Machine
end

