-- ==== Sys2Proof/Machine/HostPort.lean ====
section
/-! DEFINITION. What a host transaction does (30_encoding.md R73, 70_reset_and_hazards.md section 4), and the lines of
the host-program notation as transactions. -/

namespace Sys2Proof.Machine

/-- The register index of an access of `bytes` bytes at a byte offset. Accesses are whole aligned 32-bit words
(10_state.md R10, R19); others have none (93_implementation_defined.md U7, log 12). -/
def registerIndex (offset bytes : Nat) : Option Nat :=
  if bytes = 4 ∧ offset % 4 = 0 then some (offset / 4) else none

/-- A host write of CMD: while BUSY = 1 it has no effect at all, else it starts the command the word selects
(10_state.md R11, 30_encoding.md R67). -/
def writeCommand (c : Word) (s : State) : Host.Outcome State Fault Refusal :=
  if s.busy then .next s else exec (decodeWord c) s

/-- A host access that needs BUSY = 0; while BUSY = 1 it is refused (70_reset_and_hazards.md R198, log 11). -/
def whenIdle (s : State) (t : State) : Host.Outcome State Fault Refusal :=
  if s.busy then .refused .busyAccess else .next t

/-- A host write of a register by offset (10_state.md R11 to R19). A write to a register that does not exist is ignored
(R19). -/
def hostWriteRegister (offset bytes : Nat) (v : Word) (s : State) : Host.Outcome State Fault Refusal :=
  match registerIndex offset bytes with
  | none => .refused .narrowRegisterAccess
  | some i =>
    match Reg.ofIndex i with
    | some .cmd => writeCommand v s
    | some r => whenIdle s (s.writeRegister r v)
    | none => whenIdle s s

/-- A host read of a register by offset (10_state.md R11 to R19): no side effect on the block. STATUS can be read while
BUSY = 1 (70_reset_and_hazards.md R198); a register that does not exist reads 0 (R19). -/
def hostReadRegister (offset bytes : Nat) (s : State) : Host.Outcome State Fault Refusal :=
  match registerIndex offset bytes with
  | none => .refused .narrowRegisterAccess
  | some i =>
    match Reg.ofIndex i with
    | some .status => .next { s with readData := some (.word (s.readRegister .status)) }
    | some r => whenIdle s { s with readData := some (.word (s.readRegister r)) }
    | none => whenIdle s { s with readData := some (.word 0) }

/-- One host transaction. The host owns all four memories while BUSY = 0 (20_memory.md R40); reset may be applied at any
time (70_reset_and_hazards.md section 4). -/
def performHost (act : HostAction) (s : State) : Host.Outcome State Fault Refusal :=
  match act with
  | .writeReg offset bytes v => hostWriteRegister offset bytes v s
  | .readReg offset bytes => hostReadRegister offset bytes s
  | .writeMem sp a b => whenIdle s (s.writeByte sp a b)
  | .readMem sp a => whenIdle s { s with readData := some (.byte (s.readByte sp a)) }
  | .copyPixel a =>
    whenIdle s { s.writeByte .pixIn a (s.readByte .pixOut a) with readData := some (.byte (s.readByte .pixOut a)) }
  | .reset => .next (applyReset s)

/-- A line of the host-program notation (30_encoding.md R73). -/
inductive HostLine where
  | wr (r : Reg) (value : Word)
  | rd (r : Reg)
  | mw (mem : Space) (addr : Nat) (bytes : List Byte)
  | mr (mem : Space) (addr count : Nat)
  | encode
  | decode
  | copyOutToIn (count : Nat)
deriving DecidableEq, Repr

/-- The transactions of a line: "encoding as a host transaction" (30_encoding.md R73). -/
def HostLine.transactions (l : HostLine) : List HostAction :=
  match l with
  | .wr r v => [.writeReg (4 * r.index) 4 v]
  | .rd r => [.readReg (4 * r.index) 4]
  | .mw mem addr bytes => (List.range bytes.length).map fun j => .writeMem mem (addr + j) (bytes.getD j 0)
  | .mr mem addr count => (List.range count).map fun j => .readMem mem (addr + j)
  | .encode => [.writeReg 0 4 0x00000000#32]
  | .decode => [.writeReg 0 4 0x00000001#32]
  | .copyOutToIn count => (List.range count).map .copyPixel

end Sys2Proof.Machine
end

