-- ==== Sys2Proof/Machine/Step.lean ====
section
/-! DEFINITION. One step: the host's oldest pending transaction, or nothing when there is none. -/

namespace Sys2Proof.Machine

/-- One step. The block fetches no instructions (20_memory.md R53): a command comes as a host write of CMD, and it is
one transition (70_reset_and_hazards.md R197). With nothing pending "the block simply does nothing"
(60_exceptions.md R176). -/
def step (s : State) : Host.Outcome State Fault Refusal :=
  match s.hostQueue with
  | [] => .next s
  | act :: rest => performHost act { s with hostQueue := rest }

/-- The state in which the very next step runs the command whose word is `w`: a host write of `w` to CMD is the oldest
pending transaction, and BUSY is 0, without which the write would be ignored (10_state.md R11, log 17). -/
def State.withFetchWord (s : State) (nbits w : Nat) : State :=
  { s with
    status := s.status &&& 0xFFFFFFFE#32
    hostQueue := .writeReg 0 4 (BitVec.ofNat 32 (w % 2 ^ nbits)) :: s.hostQueue }

end Sys2Proof.Machine
end

