-- ==== Sys2Proof/Safety.lean ====
section
/-! DEFINITION. What counts as a safe run, the invariant of the block, and the terms the statements use for what a
command leaves unchanged. -/

namespace Sys2Proof.Machine

/-- "The only values STATUS ever holds" (10_state.md R12). -/
def legalStatusWords : List Word :=
  [0x00000000#32, 0x00000001#32, 0x00000002#32, 0x00000016#32, 0x00000036#32, 0x00000046#32]

/-- The values of STATUS between commands: those of `legalStatusWords` with BUSY = 0 (10_state.md R12,
70_reset_and_hazards.md R197). -/
def idleStatusWords : List Word :=
  [0x00000000#32, 0x00000002#32, 0x00000016#32, 0x00000036#32, 0x00000046#32]

/-- All four memories are in canonical form. -/
abbrev State.memoriesWf (s : State) : Prop :=
  Memory.wf s.pixIn ∧ Memory.wf s.pixOut ∧ Memory.wf s.payIn ∧ Memory.wf s.payOut

/-- The invariant of the block between transactions: STATUS is one of the words it may hold while no command runs, and
the memories are in canonical form. -/
abbrev State.Inv (s : State) : Prop := s.status ∈ idleStatusWords ∧ s.memoriesWf

/-- A transaction that makes no register access narrower than a word or unaligned (93_implementation_defined.md U7). -/
def HostAction.wordAccess (act : HostAction) : Bool :=
  match act with
  | .writeReg offset bytes _ => bytes == 4 && offset % 4 == 0
  | .readReg offset bytes => bytes == 4 && offset % 4 == 0
  | .writeMem _ _ _ => true
  | .readMem _ _ => true
  | .copyPixel _ => true
  | .reset => true

/-- A run of `n` steps is safe when no step of it stops with a fault or a refusal. -/
def SafeRun (n : Nat) (s : State) : Prop := ∃ t, Sys2Proof.core.run n s = .next t

/-- The state `s` with the internal working state of `t`: what a command leaves undefined (10_state.md R20,
60_exceptions.md R166) is taken from `t`, so that an equation `t = … .withWorkingOf t` says all the rest. -/
def State.withWorkingOf (s t : State) : State :=
  { s with bits := t.bits, cursor := t.cursor, len := t.len, asm := t.asm, draws := t.draws }

/-- The bit that position `i` of the grid in PIX_IN carries (43_bitplanereader.md R144). -/
def State.carrierBit (s : State) (i : Nat) : Bool :=
  lsbGet (s.readByte .pixIn (seqPlace s.operands.C s.operands.k i).a)

/-- The number that bits `start`, ... `start + width − 1` of a bit sequence spell, the first with the highest weight
(43_bitplanereader.md R145, 30_encoding.md R72). -/
def spelled (bit : Nat → Bool) (start width : Nat) : Nat :=
  ∑ r ∈ Finset.range width, (bit (start + r)).toNat * 2 ^ (width - 1 - r)

/-- The bytes that ENCODE must leave in PIX_OUT at an address of the grid, under a frame cut at `limit` bits
(42_bitplanewriter.md R125). -/
def State.encodedByte (s : State) (limit a : Nat) : Byte :=
  let o := s.operands
  let n := a % o.C
  let i := a / o.C * o.k + n
  if n < o.k ∧ i < limit then lsbSet (s.readByte .pixIn a) (frameBit o.L (s.readByte .payIn) i)
  else s.readByte .pixIn a

end Sys2Proof.Machine
end

