-- ==== Sys2Proof/Certificates/Slice0/Obligations.lean ====
section
/-! DEFINITION. The statements for the provers. Each docstring names the rule of spec/ the statement formalises; where a
clause rests on a choice of the model, it says so and names the log entry. -/

open Sys2Proof Sys2Proof.Machine

/-! Reset. -/

/-- 10_state.md R26. The registers and BITS at reset, what the host reads there, and that a command started with nothing
programmed fails with InvalidChannelCount and writes no memory. (The cursor, LEN and the byte assembly register, which
R26 leaves unspecified, are not mentioned.) -/
def Obligations.ResetStateAndFirstCommand : Prop :=
  State.reset.status = 0x00000000#32 ∧ State.reset.width = 0 ∧ State.reset.height = 0 ∧ State.reset.pcc = 0 ∧
  State.reset.channels = 0 ∧ State.reset.plen = 0 ∧ State.reset.rlen = 0 ∧ State.reset.bits = [] ∧
  (∀ r : Reg, State.reset.readRegister r = 0) ∧
  ∀ i ∈ [Instr.encode, Instr.decode], ∃ t, exec i State.reset = .next t ∧ t.status = 0x00000046#32 ∧
    ∀ sp a, t.readByte sp a = State.reset.readByte sp a

/-- 70_reset_and_hazards.md R191. Reset, applied at any time (BUSY or not), puts every register at its reset value and
empties BITS. MODEL'S CHOICE (logs 6, 13): every byte of every memory is a fresh unspecified value, and what belongs to
the host is kept. -/
def Obligations.ResetTransactionFromAnyState : Prop :=
  ∀ (s : State) (rest : List HostAction), ∃ t, step { s with hostQueue := .reset :: rest } = .next t ∧
    t.status = 0 ∧ t.width = 0 ∧ t.height = 0 ∧ t.pcc = 0 ∧ t.channels = 0 ∧ t.plen = 0 ∧ t.rlen = 0 ∧ t.bits = [] ∧
    (∀ sp a, t.readByte sp a = Config.unwrittenByte (s.resets + 1) sp a) ∧
    t.hostQueue = rest ∧ t.readData = s.readData

/-! The host port. -/

/-- 10_state.md R11 to R19. What a host read of each register returns while BUSY = 0, with no effect on the block: CMD
reads 0, PCC and CHANNELS read 0 in bits 31:8, a register that does not exist reads 0. (Where the returned value is kept
is the model's own, log 2.) -/
def Obligations.HostReadOfEachRegister : Prop :=
  ∀ (s : State) (rest : List HostAction), s.busy = false →
    let after (off : Nat) (v : Word) : Prop :=
      step { s with hostQueue := .readReg off 4 :: rest } =
        .next { s with hostQueue := rest, readData := some (.word v) }
    after 0x00 0 ∧ after 0x04 s.status ∧ after 0x08 s.width ∧ after 0x0C s.height ∧
    after 0x10 (BitVec.ofNat 32 s.pcc.toNat) ∧ after 0x14 (BitVec.ofNat 32 s.channels.toNat) ∧
    after 0x18 s.plen ∧ after 0x1C s.rlen ∧ ∀ i ≥ 8, after (4 * i) 0

/-- 10_state.md R12 to R19. What a host write of each register other than CMD stores while BUSY = 0: WIDTH, HEIGHT and
PLEN the whole word, PCC and CHANNELS its bits 7:0; STATUS, RLEN and a register that does not exist ignore it. Nothing
else changes. -/
def Obligations.HostWriteOfEachRegister : Prop :=
  ∀ (s : State) (rest : List HostAction) (v : Word), s.busy = false →
    let after (off : Nat) (t : State) : Prop := step { s with hostQueue := .writeReg off 4 v :: rest } = .next t
    let s' : State := { s with hostQueue := rest }
    after 0x04 s' ∧ after 0x08 { s' with width := v } ∧ after 0x0C { s' with height := v } ∧
    after 0x10 { s' with pcc := BitVec.ofNat 8 (v.toNat % 256) } ∧
    after 0x14 { s' with channels := BitVec.ofNat 8 (v.toNat % 256) } ∧
    after 0x18 { s' with plen := v } ∧ after 0x1C s' ∧ ∀ i ≥ 8, after (4 * i) s'

/-- 70_reset_and_hazards.md R198, 93_implementation_defined.md U1. While BUSY = 1 a STATUS read is served, a CMD write is
ignored, and every other access is refused (reset may be applied at any time, section 4). That this takes in reads of CMD,
of an operand register and of an input memory is log 11 (DEDUCED); where the read value is kept is the model's own,
log 2. -/
def Obligations.BusyRuleOfTheHostPort : Prop :=
  ∀ (s : State) (rest : List HostAction), s.busy = true →
    (∀ c, step { s with hostQueue := .writeReg 0x00 4 c :: rest } = .next { s with hostQueue := rest }) ∧
    step { s with hostQueue := .readReg 0x04 4 :: rest } =
      .next { s with hostQueue := rest, readData := some (.word s.status) } ∧
    ∀ act : HostAction, act.wordAccess = true → act ≠ .reset → act ≠ .readReg 0x04 4 →
      (∀ c, act ≠ .writeReg 0x00 4 c) → step { s with hostQueue := act :: rest } = .refused .busyAccess

/-- 93_implementation_defined.md U7, 10_state.md R19. A register access narrower than a word, or unaligned within the
register block, is refused. MODEL'S CHOICE (log 12): in every state, that is before the busy rule, and an access wider
than a word is refused under the same name. -/
def Obligations.NarrowRegisterAccessIsRefused : Prop :=
  ∀ (s : State) (rest : List HostAction) (act : HostAction), act.wordAccess = false →
    step { s with hostQueue := act :: rest } = .refused .narrowRegisterAccess

/-- 20_memory.md R49, R40. A host write of a memory byte while BUSY = 0 changes that location only, and a host read
returns what the location holds with no side effect; so a read after a write returns the byte written. (Where the read
value is kept is the model's own, log 2.) -/
def Obligations.HostMemoryAccessIsPlainStorage : Prop :=
  ∀ (s : State) (rest : List HostAction) (sp : Space) (a : Nat) (b : Byte), s.busy = false →
    (∃ t, step { s with hostQueue := .writeMem sp a b :: rest } = .next t ∧
      (∀ sp' x, t.readByte sp' x = if sp' = sp ∧ x = a then b else s.readByte sp' x) ∧
      t = { s with hostQueue := rest, pixIn := t.pixIn, pixOut := t.pixOut, payIn := t.payIn, payOut := t.payOut }) ∧
    step { s with hostQueue := .readMem sp a :: rest } =
      .next { s with hostQueue := rest, readData := some (.byte (s.readByte sp a)) }

/-- 30_encoding.md R73. The transactions of the line `COPY PIX_OUT -> PIX_IN, <count>`: after them PIX_IN holds PIX_OUT's
bytes at addresses `0 .. count−1`, and every other byte, every register and the working state are as before. MODEL'S
CHOICE (log 21): the line is `count` transactions, one for each byte, and leaves the last byte in readData. -/
def Obligations.CopyLineCopiesTheGrid : Prop :=
  ∀ (s : State) (rest : List HostAction) (count : Nat), s.busy = false →
    ∃ t, Sys2Proof.core.run count { s with hostQueue := (HostLine.copyOutToIn count).transactions ++ rest } = .next t ∧
      (∀ a < count, t.readByte .pixIn a = s.readByte .pixOut a) ∧
      (∀ sp a, (sp ≠ .pixIn ∨ count ≤ a) → t.readByte sp a = s.readByte sp a) ∧
      t = { s with hostQueue := rest, pixIn := t.pixIn, readData := t.readData }

/-- 60_exceptions.md R176. With no transaction pending the block does nothing: every register and memory keeps its
value. MODEL'S CHOICE (log 1): what is pending is the list hostQueue, and a step with an empty one answers the state
itself, whatever BUSY is. -/
def Obligations.IdleBlockKeepsItsState : Prop :=
  ∀ s : State, s.hostQueue = [] → step s = .next s

/-- 10_state.md R11, 30_encoding.md R67. A host write of a word to CMD while BUSY = 0 runs the command the word decodes
to, as one step, on the state with that transaction taken. -/
def Obligations.StepRunsTheDecodedCommand : Prop :=
  ∀ (s : State) (rest : List HostAction) (c : Word), s.busy = false →
    step { s with hostQueue := .writeReg 0x00 4 c :: rest } = exec (decodeWord c) { s with hostQueue := rest }

/-- The model's own (log 17): after `withFetchWord` the very next step runs the command the word decodes to, on the
same state with BUSY = 0, whatever the state. -/
def Obligations.FetchWordRunsNext : Prop :=
  ∀ (s : State) (w : Nat), w < 2 ^ 32 →
    step (s.withFetchWord 32 w) = exec (decodeWord (BitVec.ofNat 32 w)) { s with status := s.status &&& 0xFFFFFFFE#32 } ∧
    decodeTableWord 32 w = some (decodeWord (BitVec.ofNat 32 w))

/-! The command word. -/

/-- 30_encoding.md R66. `OP = 0` is ENCODE and `OP = 1` is DECODE, as match and mask patterns over the written word; bits
31:1 are ignored; the two rows are the whole opcode map, and every 32-bit value selects exactly one of them. -/
def Obligations.CommandWordSelectsOneRow : Prop :=
  opcodeMap = [⟨0x00000000#32, 0x00000001#32, .encode⟩, ⟨0x00000001#32, 0x00000001#32, .decode⟩] ∧
  ∀ c : Word,
    (c &&& 0x00000001#32 = 0x00000000#32 → decodeWord c = .encode) ∧
    (c &&& 0x00000001#32 = 0x00000001#32 → decodeWord c = .decode) ∧
    (opcodeMap.filter fun r => r.selects c).map OpcodeRow.instr = [decodeWord c] ∧
    ∀ c' : Word, c'.getLsbD 0 = c.getLsbD 0 → decodeWord c' = decodeWord c

/-- 30_encoding.md R66, R74. Decode and encode agree: every word of an operation, whatever its ignored bits, decodes to
that operation; every word is the encoding of what it decodes to, with its own bits 31:1; and the two commands are the
only operations that have a word. -/
def Obligations.DecodeAndEncodeAgree : Prop :=
  (∀ (i : Instr) (ignored : BitVec 31) (c : Word), encode ignored i = some c →
    decodeWord c = i ∧ c.extractLsb' 1 31 = ignored) ∧
  (∀ c : Word, encode (c.extractLsb' 1 31) (decodeWord c) = some c) ∧
  ∀ i : Instr, (∃ ignored, (encode ignored i).isSome) ↔ (i = .encode ∨ i = .decode)

/-- 30_encoding.md R66, 95_test_vectors.md VG6, VG7. A few words of the encoding, written out. -/
def Obligations.SampleWordsDecode : Prop :=
  decodeWord 0x00000000#32 = .encode ∧ decodeWord 0x00000001#32 = .decode ∧
  decodeWord 0xFFFFFFFE#32 = .encode ∧ decodeWord 0x80000001#32 = .decode ∧
  decodeWord 0xFFFFFFFF#32 = .decode ∧ decodeWord 0x00000002#32 = .encode

/-! BitFraming. -/

/-- 30_encoding.md R61, 40_bitframing.md R82, R83. FRAME always completes; BITS is then the frame: `32 + 8*L` bits, the
length most significant bit first, then the payload bytes in order, each most significant bit first. FRAME writes BITS,
LEN and the byte assembly register and nothing else. MODEL'S CHOICE (log 22): that register holds the last payload byte
read, and what it held before when there is none. -/
def Obligations.FrameBuildsTheWireFormat : Prop :=
  ∀ s : State, ∃ t, exec .frame s = .next t ∧
    t.bits.length = 32 + 8 * s.plen.toNat ∧
    (∀ i < 32, t.bits[i]? = some (s.plen.getLsbD (31 - i))) ∧
    (∀ j < s.plen.toNat, ∀ r < 8, t.bits[32 + 8 * j + r]? = some ((s.readByte .payIn j).getLsbD (7 - r))) ∧
    (∀ i < 32 + 8 * s.plen.toNat, t.bits[i]? = some (frameBit s.plen.toNat (s.readByte .payIn) i)) ∧
    t.len = s.plen ∧ t.asm = (if s.plen = 0 then s.asm else s.readByte .payIn (s.plen.toNat - 1)) ∧
    t = { s with bits := t.bits, len := t.len, asm := t.asm }

/-- 40_bitframing.md R85, R89. UNFRAME accepts every sequence of at least `32 + 8*length` bits, where `length` is what
its first 32 bits spell; it leaves the length in LEN, returns it, and writes the `length` payload bytes to PAY_OUT from
address 0. STATUS, every other register, and every other byte are unchanged. (That the returned length is kept in
opResult, and that RLEN is not UNFRAME's to write, are logs 3 and 15.) -/
def Obligations.UnframeReadsLengthAndPayload : Prop :=
  ∀ s : State,
    let S (i : Nat) : Bool := s.bits.getD i false
    let length := spelled S 0 32
    32 ≤ s.bits.length → 32 + 8 * length ≤ s.bits.length →
    ∃ t, exec .unframe s = .next t ∧ t.len.toNat = length ∧ t.opResult = some (.length t.len) ∧
      (∀ j < length, (t.readByte .payOut j).toNat = spelled S (32 + 8 * j) 8) ∧
      (∀ sp a, (sp ≠ .payOut ∨ length ≤ a) → t.readByte sp a = s.readByte sp a) ∧
      t = { s with len := t.len, asm := t.asm, opResult := t.opResult, payOut := t.payOut }

/-- 40_bitframing.md R85, R86. With fewer than 32 bits, or fewer than `32 + 8*length`, UNFRAME raises TruncatedFrame
before any write: STATUS is 0x36 and everything else but the working state is as before. (Entering the error when UNFRAME
runs on its own is log 16.) -/
def Obligations.UnframeOfTooFewBitsIsTruncated : Prop :=
  ∀ s : State,
    (s.bits.length < 32 ∨ s.bits.length < 32 + 8 * spelled (fun i => s.bits.getD i false) 0 32) →
    ∃ t, exec .unframe s = .next t ∧ t = { s with status := 0x00000036#32 }.withWorkingOf t ∧
      ∀ sp a, t.readByte sp a = s.readByte sp a

/-- 40_bitframing.md R88. The remainder is ignored: bits after those the declared length requires change nothing of what
UNFRAME does. -/
def Obligations.UnframeIgnoresTheRemainder : Prop :=
  ∀ (s : State) (T : List Bool), 32 ≤ s.bits.length →
    32 + 8 * spelled (fun i => s.bits.getD i false) 0 32 ≤ s.bits.length →
    ∃ t, exec .unframe s = .next t ∧
      exec .unframe { s with bits := s.bits ++ T } = .next { t with bits := s.bits ++ T }

/-- 40_bitframing.md R90. UNFRAME after FRAME, with anything appended to the frame, returns the length and writes the
payload, and does not raise; and FRAME is injective on (length, payload) pairs. (That the length is returned in opResult
is log 3.) -/
def Obligations.FrameThenUnframeIsIdentity : Prop :=
  (∀ (s : State) (T : List Bool), ∃ t u, exec .frame s = .next t ∧
    exec .unframe { t with bits := t.bits ++ T } = .next u ∧
    u.opResult = some (.length s.plen) ∧ u.status = s.status ∧
    ∀ j < s.plen.toNat, u.readByte .payOut j = s.readByte .payIn j) ∧
  ∀ s s' t t' : State, exec .frame s = .next t → exec .frame s' = .next t' → t.bits = t'.bits →
    s.plen = s'.plen ∧ ∀ j < s.plen.toNat, s.readByte .payIn j = s'.readByte .payIn j

/-! The sequencer and the carrier bit. -/

/-- 41_sequencer.md R101. SEQ over every position that exists completes with its place, and writes nothing else. (Where
the result is kept is log 3.) -/
def Obligations.SeqAnswersThePlace : Prop :=
  ∀ (s : State) (i : Nat),
    let C := s.pcc.toNat
    let k := s.channels.toNat
    1 ≤ k → k ≤ C → i < s.width.toNat * s.height.toNat * k →
    exec (.seq i) s = .next { s with opResult := some (.place (i / k) (i % k) (i / k * C + i % k)) }

/-- 41_sequencer.md R101 states the result of SEQ for the positions that exist, with `1 ≤ k ≤ C`. MODEL'S CHOICE (log
10): asked for any other, SEQ run on its own completes too, its result is some triple that nothing constrains, and it
writes nothing else but that result and the counter that selects the model's free values. -/
def Obligations.SeqOfNoPositionRunsWithAFreeResult : Prop :=
  ∀ (s : State) (i : Nat),
    (s.channels.toNat = 0 ∨ s.pcc.toNat < s.channels.toNat ∨
      s.width.toNat * s.height.toNat * s.channels.toNat ≤ i) →
    ∃ p n a, exec (.seq i) s = .next { s with opResult := some (.place p n a), draws := s.draws + 1 }

/-- 41_sequencer.md R101. SEQ and POS are inverse maps between the positions `0 .. N*k − 1` and the selected channels of
`N` pixels; an unselected channel carries no position; and SEQ is increasing in the address. With `k = C` every channel
is selected and `a = i`; with `k = 1`, `a = i*C`. SEQ run on its own answers that place and writes no flag. (Where that
result is kept is log 3.) -/
def Obligations.SeqAndPosAreInverse : Prop :=
  ∀ N C k : Nat, 1 ≤ k → k ≤ C →
    (∀ i < N * k, (seqPlace C k i).p < N ∧ (seqPlace C k i).n < k ∧
      (seqPlace C k i).a = (seqPlace C k i).p * C + (seqPlace C k i).n ∧
      posOf k (seqPlace C k i).p (seqPlace C k i).n = some i) ∧
    (∀ p < N, ∀ n < C, (n < k → posOf k p n = some (p * k + n) ∧ p * k + n < N * k ∧
      seqPlace C k (p * k + n) = ⟨p, n, p * C + n⟩) ∧ (k ≤ n → posOf k p n = none)) ∧
    (∀ i j, i < j → (seqPlace C k i).a < (seqPlace C k j).a) ∧
    (k = C → ∀ i, (seqPlace C k i).a = i) ∧ (k = 1 → ∀ i, (seqPlace C k i).a = i * C) ∧
    ∀ (s : State) (i : Nat), s.operands.C = C → s.operands.k = k → s.operands.pixels = N → i < N * k →
      ∃ t, exec (.seq i) s = .next t ∧ t.status = s.status ∧
        t.opResult = some (.place (seqPlace C k i).p (seqPlace C k i).n (seqPlace C k i).a)

/-- 41_sequencer.md R106. LSBSET completes for every byte and bit: the result is `(v & 0xFE) | b`, which is
`v − v[0] + b`: bits 7:1 of `v` and `b` in bit 0; `b = v[0]` leaves `v` unchanged; it is below `v` by one only when `v`
is odd and `b = 0`, above by one only when `v` is even and `b = 1`, and else equal. It writes no flag and nothing else.
(Where the result is kept is log 3.) -/
def Obligations.LsbSetReplacesTheLowestBit : Prop :=
  ∀ (v : Byte) (b : Bool) (s : State), ∃ r : Byte,
    exec (.lsbset v b) s = .next { s with opResult := some (.byte r) } ∧
    r = ((v &&& 0xFE#8) ||| (if b then 1#8 else 0#8)) ∧
    r.toNat = v.toNat - v.toNat % 2 + b.toNat ∧ r.toNat / 2 = v.toNat / 2 ∧ r.getLsbD 0 = b ∧
    (b = v.getLsbD 0 → r = v) ∧
    (r.toNat + 1 = v.toNat ↔ v.toNat % 2 = 1 ∧ b = false) ∧
    (r.toNat = v.toNat + 1 ↔ v.toNat % 2 = 0 ∧ b = true) ∧
    (r.toNat = v.toNat ∨ r.toNat + 1 = v.toNat ∨ r.toNat = v.toNat + 1)

/-- 41_sequencer.md R107. LSBGET completes for every byte: the result is `v mod 2`. It writes no flag and nothing else.
(Where the result is kept is log 3.) -/
def Obligations.LsbGetReadsTheLowestBit : Prop :=
  ∀ (v : Byte) (s : State), ∃ b : Bool,
    exec (.lsbget v) s = .next { s with opResult := some (.bit b) } ∧ b.toNat = v.toNat % 2 ∧
    b = (v &&& 0x01#8 == 0x01#8)

/-- 41_sequencer.md R108. The four laws (a) to (d) of the carrier-bit operations. -/
def Obligations.CarrierBitLaws : Prop :=
  ∀ (v : Byte) (b b' : Bool),
    lsbGet (lsbSet v b) = b ∧ lsbSet v b &&& 0xFE#8 = v &&& 0xFE#8 ∧ lsbSet v (lsbGet v) = v ∧
    lsbSet (lsbSet v b) b' = lsbSet v b'

/-! How commands end. -/

/-- 60_exceptions.md R161, R166, R167. `raise` writes `0x00000006 | (code << 4)` to STATUS (codes 1 to 4 in the order of
the taxonomy), `complete` writes 0x00000002, and neither writes anything else the host can see. -/
def Obligations.RaiseAndCompleteWriteStatusOnly : Prop :=
  ∀ s : State,
    (∀ e : CodecError, raise e s = { s with status := 0x00000006#32 ||| (e.code <<< 4) }.withWorkingOf (raise e s) ∧
      (raise e s).busy = false ∧ (raise e s).done = true ∧ (raise e s).err = true ∧
      (raise e s).ecode = e.code.toNat) ∧
    (raise .capacityExceeded s).status = 0x00000016#32 ∧ (raise .truncatedFrame s).status = 0x00000036#32 ∧
    (raise .invalidChannelCount s).status = 0x00000046#32 ∧ CodecError.channelCountMismatch.code = 2 ∧
    complete s = { s with status := 0x00000002#32 }.withWorkingOf (complete s) ∧
    (complete s).busy = false ∧ (complete s).done = true ∧ (complete s).err = false ∧ (complete s).ecode = 0

/-- 60_exceptions.md R162. InvalidChannelCount: `k = 0` or `k > C`, for both commands, before anything else; STATUS is
0x46 and everything else but the working state is as before. `C = 0` satisfies the condition for every `k`; when it is
false, `1 ≤ k ≤ C ≤ 255`. -/
def Obligations.InvalidChannelCountEndsBothCommands : Prop :=
  ∀ s : State,
    let C := s.pcc.toNat
    let k := s.channels.toNat
    ((k = 0 ∨ C < k) → ∀ i ∈ [Instr.encode, Instr.decode], ∃ t, exec i s = .next t ∧
      t = { s with status := 0x00000046#32 }.withWorkingOf t ∧ ∀ sp a, t.readByte sp a = s.readByte sp a) ∧
    (C = 0 → k = 0 ∨ C < k) ∧ (¬ (k = 0 ∨ C < k) → 1 ≤ k ∧ k ≤ C ∧ C ≤ 255)

/-- 60_exceptions.md R163, 42_bitplanewriter.md R124. CapacityExceeded: under STRICT, after the channel count check,
`32 + 8*L > W*H*k` (exact) ends ENCODE with STATUS 0x16 and everything else but the working state as before. It is never
raised under PERMISSIVE, an ENCODE that ends with it met exactly that condition, and DECODE never raises it. -/
def Obligations.CapacityExceededEndsStrictEncode : Prop :=
  ∀ s : State,
    let cap := s.width.toNat * s.height.toNat * s.channels.toNat
    (1 ≤ s.channels.toNat → s.channels.toNat ≤ s.pcc.toNat → cap < 32 + 8 * s.plen.toNat →
      ∃ t, exec .encode s = .next t ∧ t = { s with status := 0x00000016#32 }.withWorkingOf t ∧
        ∀ sp a, t.readByte sp a = s.readByte sp a) ∧
    (∀ (cfg : Config) (t : State), cfg.capPolicy = .permissive → encodeWith cfg s = .next t → t.status ≠ 0x00000016#32) ∧
    (∀ (cfg : Config) (t : State), encodeWith cfg s = .next t → t.status = 0x00000016#32 →
      cfg.capPolicy = .strict ∧ 1 ≤ s.channels.toNat ∧ s.channels.toNat ≤ s.pcc.toNat ∧ cap < 32 + 8 * s.plen.toNat) ∧
    ∀ (cfg : Config) (t : State), decodeWith cfg s = .next t → t.status ≠ 0x00000016#32

/-- 60_exceptions.md R164. TruncatedFrame: after the channel count check, `cap < 32`, or `32 + 8*length > cap` (exact) for
the length the first 32 carrier bits spell, ends DECODE with STATUS 0x36 and everything else but the working state as
before. ENCODE never raises it, under either policy. -/
def Obligations.TruncatedFrameEndsDecode : Prop :=
  ∀ s : State,
    let cap := s.width.toNat * s.height.toNat * s.channels.toNat
    (1 ≤ s.channels.toNat → s.channels.toNat ≤ s.pcc.toNat →
      (cap < 32 ∨ cap < 32 + 8 * spelled s.carrierBit 0 32) →
      ∃ t, exec .decode s = .next t ∧ t = { s with status := 0x00000036#32 }.withWorkingOf t ∧
        ∀ sp a, t.readByte sp a = s.readByte sp a) ∧
    ∀ (cfg : Config) (t : State), encodeWith cfg s = .next t → t.status ≠ 0x00000036#32

/-- 60_exceptions.md R168, 70_reset_and_hazards.md R204. Every command answers a next state with DONE = 1, from every
state, and reports exactly one outcome: ENCODE reports InvalidChannelCount, then CapacityExceeded; DECODE reports
InvalidChannelCount, then TruncatedFrame; and else success. -/
def Obligations.CommandsEndAndReportTheFirstError : Prop :=
  ∀ s : State,
    let C := s.pcc.toNat
    let k := s.channels.toNat
    let cap := s.width.toNat * s.height.toNat * k
    (∃ t, exec .encode s = .next t ∧ t.done = true ∧ t.busy = false ∧
      t.status = if k = 0 ∨ C < k then 0x00000046#32
        else if cap < 32 + 8 * s.plen.toNat then 0x00000016#32 else 0x00000002#32) ∧
    ∃ t, exec .decode s = .next t ∧ t.done = true ∧ t.busy = false ∧
      t.status = if k = 0 ∨ C < k then 0x00000046#32
        else if cap < 32 ∨ cap < 32 + 8 * spelled s.carrierBit 0 32 then 0x00000036#32 else 0x00000002#32

/-! ENCODE. -/

/-- 42_bitplanewriter.md R121, R128. ENCODE completes whenever `1 ≤ k ≤ C` and `32 + 8*L ≤ W*H*k`: STATUS is 2, the
address `a` of the grid holds the frame bit of its position in the lowest bit where the frame reaches a selected channel,
and the cover byte elsewhere. Every byte outside PIX_OUT's grid, every other register and the model's own fields are
unchanged. -/
def Obligations.EncodeCompletesWithTheFrame : Prop :=
  ∀ s : State,
    let W := s.width.toNat
    let H := s.height.toNat
    let C := s.pcc.toNat
    let k := s.channels.toNat
    let L := s.plen.toNat
    1 ≤ k → k ≤ C → 32 + 8 * L ≤ W * H * k →
    ∃ t, exec .encode s = .next t ∧
      (∀ p < W * H, ∀ n < C, t.readByte .pixOut (p * C + n) =
        if n < k ∧ p * k + n < 32 + 8 * L then
          lsbSet (s.readByte .pixIn (p * C + n)) (frameBit L (s.readByte .payIn) (p * k + n))
        else s.readByte .pixIn (p * C + n)) ∧
      (∀ sp a, (sp ≠ .pixOut ∨ W * H * C ≤ a) → t.readByte sp a = s.readByte sp a) ∧
      t = { s with status := 0x00000002#32, pixOut := t.pixOut }.withWorkingOf t

/-- 42_bitplanewriter.md R125. The value of every output byte in closed form, under either policy and any memory sizes
the command fits in: the frame reaches the positions below `min(F, cap)`. Under STRICT success implies `F ≤ cap`. This
hardware is the STRICT configuration (00_scope.md R8). -/
def Obligations.EncodeClosedFormUnderEitherPolicy : Prop :=
  (∀ s : State, exec .encode s = encodeWith ⟨.strict, none, none⟩ s) ∧
  (∀ (cfg : Config) (s t : State), cfg.capPolicy = .strict → encodeWith cfg s = .next t → t.status = 0x00000002#32 →
    s.operands.frameBits ≤ s.operands.cap) ∧
  ∀ (cfg : Config) (s : State), encodeFits cfg s.operands = true →
    1 ≤ s.operands.k → s.operands.k ≤ s.operands.C →
    (cfg.capPolicy = .strict → s.operands.frameBits ≤ s.operands.cap) →
    ∃ t, encodeWith cfg s = .next t ∧ t.status = 0x00000002#32 ∧
      (∀ a < s.operands.gridBytes,
        t.readByte .pixOut a = s.encodedByte (min s.operands.frameBits s.operands.cap) a) ∧
      ∀ p < s.operands.pixels, ∀ n < s.operands.k, p * s.operands.k + n < s.operands.cap

/-- 42_bitplanewriter.md R126. PERMISSIVE: ENCODE with a valid channel count always completes; with `F ≤ cap` the
resulting state is that of STRICT; with `F > cap` the first `cap` frame bits are written to the `cap` selected channels
and the rest dropped; with `W*H = 0` nothing is written. -/
def Obligations.PermissiveEncodeCutsTheFrame : Prop :=
  ∀ s : State, 1 ≤ s.operands.k → s.operands.k ≤ s.operands.C →
    ∃ t, encodeWith ⟨.permissive, none, none⟩ s = .next t ∧ t.status = 0x00000002#32 ∧
      (s.operands.frameBits ≤ s.operands.cap → exec .encode s = .next t) ∧
      (s.operands.cap < s.operands.frameBits → ∀ i < s.operands.cap,
        t.readByte .pixOut (seqPlace s.operands.C s.operands.k i).a =
          lsbSet (s.readByte .pixIn (seqPlace s.operands.C s.operands.k i).a)
            (frameBit s.operands.L (s.readByte .payIn) i)) ∧
      (∀ p < s.operands.pixels, ∀ n < s.operands.C, s.operands.k ≤ n →
        t.readByte .pixOut (p * s.operands.C + n) = s.readByte .pixIn (p * s.operands.C + n)) ∧
      (s.operands.W * s.operands.H = 0 → ∀ sp a, t.readByte sp a = s.readByte sp a)

/-- 42_bitplanewriter.md R126, 43_bitplanereader.md R144, R145. A grid that a PERMISSIVE over-capacity ENCODE
produced does not decode: DECODE with the same pixel count, `C` and `k` ends with TruncatedFrame, if the carrier bits reach it as
written. -/
def Obligations.CutFrameDoesNotDecode : Prop :=
  ∀ s t u : State, 1 ≤ s.operands.k → s.operands.k ≤ s.operands.C → s.operands.cap < s.operands.frameBits →
    encodeWith ⟨.permissive, none, none⟩ s = .next t →
    u.operands.pixels = s.operands.pixels → u.operands.C = s.operands.C → u.operands.k = s.operands.k →
    (∀ i < s.operands.cap, u.carrierBit i = lsbGet (t.readByte .pixOut (seqPlace s.operands.C s.operands.k i).a)) →
    ∃ v, exec .decode u = .next v ∧ v.status = 0x00000036#32

/-- 42_bitplanewriter.md R127. The remainder of the image: selected channels at positions `F .. cap−1` are copied
unmodified by a successful ENCODE. -/
def Obligations.EncodeCopiesTheRemainder : Prop :=
  ∀ s : State, 1 ≤ s.operands.k → s.operands.k ≤ s.operands.C → s.operands.frameBits ≤ s.operands.cap →
    ∃ t, exec .encode s = .next t ∧
      ∀ i, s.operands.frameBits ≤ i → i < s.operands.cap →
        t.readByte .pixOut (seqPlace s.operands.C s.operands.k i).a =
          s.readByte .pixIn (seqPlace s.operands.C s.operands.k i).a

/-- 42_bitplanewriter.md R129. Properties (a) to (d) of a successful ENCODE: channel isolation; upper-bit preservation,
hence a change of at most one; with `L = 0` the first 32 selected channels get lowest bit 0 and every other byte is
copied; the carrier bits are the frame. -/
def Obligations.EncodeProperties : Prop :=
  ∀ s : State, 1 ≤ s.operands.k → s.operands.k ≤ s.operands.C → s.operands.frameBits ≤ s.operands.cap →
    ∃ t, exec .encode s = .next t ∧
      (∀ p < s.operands.pixels, ∀ n < s.operands.C, s.operands.k ≤ n →
        t.readByte .pixOut (p * s.operands.C + n) = s.readByte .pixIn (p * s.operands.C + n)) ∧
      (∀ a < s.operands.gridBytes,
        t.readByte .pixOut a &&& 0xFE#8 = s.readByte .pixIn a &&& 0xFE#8 ∧
        (t.readByte .pixOut a).toNat ≤ (s.readByte .pixIn a).toNat + 1 ∧
        (s.readByte .pixIn a).toNat ≤ (t.readByte .pixOut a).toNat + 1) ∧
      (s.operands.L = 0 →
        (∀ i < 32, lsbGet (t.readByte .pixOut (seqPlace s.operands.C s.operands.k i).a) = false) ∧
        ∀ a < s.operands.gridBytes, (∀ i < 32, a ≠ (seqPlace s.operands.C s.operands.k i).a) →
          t.readByte .pixOut a = s.readByte .pixIn a) ∧
      ∀ i < s.operands.frameBits,
        lsbGet (t.readByte .pixOut (seqPlace s.operands.C s.operands.k i).a) =
          frameBit s.operands.L (s.readByte .payIn) i

/-- 42_bitplanewriter.md R130, 10_state.md R24, 41_sequencer.md R102. ENCODE is a function of the pixel count, `C`, `k`,
`L`, the grid in PIX_IN and the payload in PAY_IN, and of nothing else: two states that agree on these end with the same
STATUS and, on success, the same grid in PIX_OUT. -/
def Obligations.EncodeDependsOnItsInputsOnly : Prop :=
  ∀ s s' : State, s'.operands.pixels = s.operands.pixels → s'.operands.C = s.operands.C →
    s'.operands.k = s.operands.k → s'.operands.L = s.operands.L →
    (∀ a < s.operands.gridBytes, s'.readByte .pixIn a = s.readByte .pixIn a) →
    (∀ j < s.operands.L, s'.readByte .payIn j = s.readByte .payIn j) →
    ∃ t t', exec .encode s = .next t ∧ exec .encode s' = .next t' ∧ t'.status = t.status ∧
      (t.status = 0x00000002#32 →
        ∀ a < s.operands.gridBytes, t'.readByte .pixOut a = t.readByte .pixOut a)

/-- 41_sequencer.md R108 (d), 42_bitplanewriter.md R131 (f). Encoding over an already encoded grid leaves no trace of the
first frame where the second covers it: with a second frame at least as long, the result is what encoding the second
payload into the original cover gives. -/
def Obligations.EncodingAgainLeavesNoTrace : Prop :=
  ∀ s t u u' : State, 1 ≤ s.operands.k → s.operands.k ≤ s.operands.C → s.operands.frameBits ≤ s.operands.cap →
    exec .encode s = .next t →
    u.operands = u'.operands → u.operands.pixels = s.operands.pixels → u.operands.C = s.operands.C →
    u.operands.k = s.operands.k → s.operands.frameBits ≤ u.operands.frameBits →
    u.operands.frameBits ≤ u.operands.cap →
    (∀ a < s.operands.gridBytes, u.readByte .pixIn a = t.readByte .pixOut a) →
    (∀ a < s.operands.gridBytes, u'.readByte .pixIn a = s.readByte .pixIn a) →
    (∀ j < u.operands.L, u'.readByte .payIn j = u.readByte .payIn j) →
    ∃ v v', exec .encode u = .next v ∧ exec .encode u' = .next v' ∧ v.status = 0x00000002#32 ∧
      v'.status = 0x00000002#32 ∧
      ∀ a < s.operands.gridBytes, v.readByte .pixOut a = v'.readByte .pixOut a

/-! DECODE. -/

/-- 43_bitplanereader.md R144, R145. With a valid channel count: if `cap < 32`, or `32 + 8*length > cap` for the length
the first 32 carrier bits spell, DECODE ends with TruncatedFrame; else it completes with `RLEN = length` and the payload
bytes the carrier bits spell in PAY_OUT, and every other byte, every other register and the model's own fields are
unchanged (R146). Carrier bit `i` is the lowest bit of `PIX_IN[(i div k)*C + (i mod k)]`. -/
def Obligations.DecodeCompletesWithThePayload : Prop :=
  ∀ s : State,
    let C := s.pcc.toNat
    let k := s.channels.toNat
    let cap := s.width.toNat * s.height.toNat * k
    let bit (i : Nat) : Bool := (s.readByte .pixIn (i / k * C + i % k)).toNat % 2 == 1
    let length := spelled bit 0 32
    1 ≤ k → k ≤ C →
    ((cap < 32 ∨ cap < 32 + 8 * length) → ∃ t, exec .decode s = .next t ∧ t.status = 0x00000036#32) ∧
    (32 ≤ cap → 32 + 8 * length ≤ cap → ∃ t, exec .decode s = .next t ∧
      t.rlen.toNat = length ∧
      (∀ j < length, (t.readByte .payOut j).toNat = spelled bit (32 + 8 * j) 8) ∧
      (∀ sp a, (sp ≠ .payOut ∨ length ≤ a) → t.readByte sp a = s.readByte sp a) ∧
      t = { s with status := 0x00000002#32, rlen := t.rlen, payOut := t.payOut }.withWorkingOf t)

/-- 43_bitplanereader.md R149, 41_sequencer.md R102. DECODE depends on the pixel count, `C`, `k` and the lowest bits of
the selected channels, and on nothing else: not on PLEN, PAY_IN, unselected channels, bits 7:1, or what an earlier
command left, nor on CAP_POLICY. Two states that agree on these end with the same STATUS and, on success, the same RLEN
and payload. -/
def Obligations.DecodeDependsOnTheCarrierOnly : Prop :=
  ∀ s s' : State, s'.operands.pixels = s.operands.pixels → s'.operands.C = s.operands.C →
    s'.operands.k = s.operands.k →
    (∀ p < s.operands.pixels, ∀ n < s.operands.k,
      lsbGet (s'.readByte .pixIn (p * s.operands.C + n)) = lsbGet (s.readByte .pixIn (p * s.operands.C + n))) →
    ∃ t t', exec .decode s = .next t ∧ exec .decode s' = .next t' ∧ t'.status = t.status ∧
      (t.status = 0x00000002#32 → t'.rlen = t.rlen ∧
        ∀ j < t.rlen.toNat, t'.readByte .payOut j = t.readByte .payOut j) ∧
      ∀ policy : CapPolicy, decodeWith ⟨policy, none, none⟩ s = exec .decode s

/-- 43_bitplanereader.md R147, 70_reset_and_hazards.md R201. The round trip: an ENCODE whose frame fits succeeds, under
either policy, and any DECODE that then finds the same pixel count, `C` and `k`, and the carrier bits of the frame as
ENCODE wrote them, succeeds with `RLEN = L` and returns the payload. (A host that copies PIX_OUT to PIX_IN unchanged meets the premise; so does one
that changes bits 7:1, unselected channels or the channels after the frame.) -/
def Obligations.DecodeAfterEncodeReturnsThePayload : Prop :=
  ∀ s : State, 1 ≤ s.operands.k → s.operands.k ≤ s.operands.C → s.operands.frameBits ≤ s.operands.cap →
    ∃ t, exec .encode s = .next t ∧ encodeWith ⟨.permissive, none, none⟩ s = .next t ∧ t.status = 0x00000002#32 ∧
      ∀ u : State, u.operands.pixels = s.operands.pixels → u.operands.C = s.operands.C →
        u.operands.k = s.operands.k →
        (∀ i < s.operands.frameBits,
          u.carrierBit i = lsbGet (t.readByte .pixOut (seqPlace s.operands.C s.operands.k i).a)) →
        ∃ v, exec .decode u = .next v ∧ v.status = 0x00000002#32 ∧ v.rlen = s.plen ∧
          ∀ j < s.plen.toNat, v.readByte .payOut j = s.readByte .payIn j

/-! The whole machine. -/

/-- The invariant at reset: STATUS is a word it may hold while no command runs (10_state.md R12) and the memories are in
canonical form. (That form is the model's own, log 6.) -/
def Obligations.InvariantAtReset : Prop := State.reset.Inv

/-- Every step keeps the invariant: STATUS is one of the words it may hold while no command runs (10_state.md R12;
70_reset_and_hazards.md R197: in the one-transition model the BUSY word is never left in STATUS), and the four memories
keep their canonical form. (That no step leaves the BUSY word is log 4; the canonical form is the model's own, log 6.) -/
def Obligations.StepKeepsTheInvariant : Prop :=
  ∀ s t : State, s.Inv → step s = .next t → t.Inv

/-- 10_state.md R12, 60_exceptions.md R161, R165. From a state of the invariant, after any step: BUSY is 0, so at most one
of BUSY and DONE is 1; ERR = 1 implies DONE = 1; ECODE is 0 exactly when ERR = 0, and else is 1, 3 or 4: ChannelCountMismatch
(2) and 5 to 15 are never produced; bits 3 and 31:8 are 0. (BUSY = 0 after every step rests on the one-transition model,
70_reset_and_hazards.md R197, log 4.) -/
def Obligations.StatusFieldsAfterEveryStep : Prop :=
  ∀ s t : State, s.Inv → step s = .next t →
    t.busy = false ∧ (t.err = true → t.done = true) ∧ (t.err = false ↔ t.ecode = 0) ∧
    t.ecode ∈ [0, 1, 3, 4] ∧ t.status.getLsbD 3 = false ∧ ∀ j ≥ 8, t.status.getLsbD j = false

/-- Safety, as a step lemma (70_reset_and_hazards.md section 4, 93_implementation_defined.md U1, U7): from a state of the
invariant whose pending transactions access registers by whole aligned words, a step answers a next state, no fault and
no refusal, and that state meets both conditions again. It rests on log 7: this hardware's memories have no bound, so no
command is refused (93_implementation_defined.md U5). -/
def Obligations.WordAccessHostIsNeverStopped : Prop :=
  ∀ s : State, s.Inv → (∀ act ∈ s.hostQueue, act.wordAccess = true) →
    ∃ t, step s = .next t ∧ t.Inv ∧ ∀ act ∈ t.hostQueue, act.wordAccess = true

/-- 10_state.md R18. RLEN changes in a step only by reset or by a successful DECODE: a failing DECODE, an ENCODE and every
other host access leave it. -/
def Obligations.RlenChangesOnlyByDecodeOrReset : Prop :=
  ∀ s t : State, step s = .next t → t.rlen ≠ s.rlen →
    ∃ act rest, s.hostQueue = act :: rest ∧
      (act = .reset ∨ ∃ c : Word, act = .writeReg 0x00 4 c ∧ c.getLsbD 0 = true ∧ s.busy = false ∧
        t.status = 0x00000002#32)

/-- 20_memory.md R41 to R44, 42_bitplanewriter.md R128, 43_bitplanereader.md R146, 70_reset_and_hazards.md R195. What a
command never writes, however it ends: no command writes an operand register, PIX_IN or PAY_IN; ENCODE does not write
PAY_OUT or RLEN; DECODE does not write PIX_OUT; and a command that ends with an error writes no memory and no RLEN. -/
def Obligations.CommandsNeverWriteTheirInputs : Prop :=
  ∀ (s t : State) (i : Instr), (i = .encode ∨ i = .decode) → exec i s = .next t →
    t.width = s.width ∧ t.height = s.height ∧ t.pcc = s.pcc ∧ t.channels = s.channels ∧ t.plen = s.plen ∧
    (∀ a, t.readByte .pixIn a = s.readByte .pixIn a) ∧ (∀ a, t.readByte .payIn a = s.readByte .payIn a) ∧
    (i = .encode → t.rlen = s.rlen ∧ ∀ a, t.readByte .payOut a = s.readByte .payOut a) ∧
    (i = .decode → ∀ a, t.readByte .pixOut a = s.readByte .pixOut a) ∧
    (t.err = true → t.rlen = s.rlen ∧ ∀ sp a, t.readByte sp a = s.readByte sp a)

/-- 20_memory.md R54, 70_reset_and_hazards.md R203, 93_implementation_defined.md U5. Bounded memories: a command whose
footprint exceeds PIX_MEM_SIZE or PAY_MEM_SIZE is refused, and one that stays within them does what the unbounded machine
does. DECODE's footprint in the payload memory is the length it decodes, so a DECODE that ends with an error has none;
and a PAY_MEM_SIZE of at least `(PIX_MEM_SIZE − 32) div 8` holds every DECODE result. MODEL'S CHOICE (log 7): the refusal
for the grid comes before the entry checks, and that for the decoded length once it is known. -/
def Obligations.BoundedMemoriesRefuseOrAgree : Prop :=
  ∀ (policy : CapPolicy) (pix pay : Nat) (s : State),
    let cfg : Config := ⟨policy, some pix, some pay⟩
    let length := spelled s.carrierBit 0 32
    let decodes : Prop := 1 ≤ s.operands.k ∧ s.operands.k ≤ s.operands.C ∧ 32 + 8 * length ≤ s.operands.cap
    ((pix < s.operands.gridBytes ∨ pay < s.operands.L) → encodeWith cfg s = .refused .exceedsMemory) ∧
    (s.operands.gridBytes ≤ pix → s.operands.L ≤ pay → encodeWith cfg s = encodeWith ⟨policy, none, none⟩ s) ∧
    (pix < s.operands.gridBytes → decodeWith cfg s = .refused .exceedsMemory) ∧
    (s.operands.gridBytes ≤ pix → decodes → pay < length → decodeWith cfg s = .refused .exceedsMemory) ∧
    (s.operands.gridBytes ≤ pix → (decodes → length ≤ pay) → decodeWith cfg s = exec .decode s) ∧
    (s.operands.gridBytes ≤ pix → (pix - 32) / 8 ≤ pay → decodeWith cfg s = exec .decode s)

/-- Safety of every run, what `WordAccessHostIsNeverStopped` says of a step: from a state of the invariant, with any
transactions pending that access registers by whole aligned words, no step of any run stops with a fault or a refusal.
It rests on log 7 as that does. -/
def Obligations.WordAccessHostRunsAreSafe : Prop :=
  ∀ (n : Nat) (s : State), s.Inv → (∀ act ∈ s.hostQueue, act.wordAccess = true) → SafeRun n s
end

