-- ==== Sys2Proof/Laws/Memory.lean ====
section
/-! SUPPORT. The laws of one memory: read after write, and every operation keeps the canonical form. -/

namespace Sys2Proof.Machine

@[simp] theorem Memory.byteAt_nil (a : Nat) : Memory.byteAt [] a = none := rfl

theorem Memory.byteAt_cons (a a' : Nat) (b : Byte) (m : Memory) :
    Memory.byteAt ((a', b) :: m) a = if a' = a then some b else Memory.byteAt m a := rfl

/-- A read after a write to the same address gives the byte written; every other address reads as before. -/
theorem Memory.byteAt_put (m : Memory) (a x : Nat) (b : Byte) :
    Memory.byteAt (Memory.put m a b) x = if x = a then some b else Memory.byteAt m x := by
  induction m with
  | nil => simp [Memory.put, Memory.byteAt_cons, eq_comm]
  | cons c m ih =>
    obtain ⟨a', b'⟩ := c
    unfold Memory.put
    split
    · simp [Memory.byteAt_cons, eq_comm]
    · split
      · subst_vars
        simp only [Memory.byteAt_cons, eq_comm]
        split <;> rfl
      · rw [Memory.byteAt_cons, ih, Memory.byteAt_cons]
        split <;> split <;> simp_all

/-- The addresses a write leaves listed: those listed before, and the one written. -/
theorem Memory.mem_put {m : Memory} {a : Nat} {b : Byte} {c : Host.Cell} (h : c ∈ Memory.put m a b) :
    c = (a, b) ∨ c ∈ m := by
  induction m with
  | nil => simpa [Memory.put] using h
  | cons d m ih =>
    unfold Memory.put at h
    split at h
    · simpa using h
    · split at h
      · rcases List.mem_cons.1 h with h | h
        · exact .inl h
        · exact .inr (List.mem_cons_of_mem _ h)
      · rcases List.mem_cons.1 h with h | h
        · exact .inr (h ▸ List.mem_cons_self)
        · exact (ih h).imp_right (List.mem_cons_of_mem _)

/-- A write keeps the canonical form. -/
theorem Memory.put_wf {m : Memory} (h : Memory.wf m) (a : Nat) (b : Byte) : Memory.wf (Memory.put m a b) := by
  induction m with
  | nil => simp [Memory.put, Memory.wf]
  | cons c m ih =>
    obtain ⟨a', b'⟩ := c
    obtain ⟨hhead, htail⟩ := List.pairwise_cons.1 h
    unfold Memory.put
    split
    next hlt =>
      refine List.pairwise_cons.2 ⟨fun d hd => ?_, h⟩
      rcases List.mem_cons.1 hd with rfl | hd
      · exact hlt
      · exact lt_trans hlt (hhead d hd)
    next hlt =>
      split
      next heq => subst heq; exact List.pairwise_cons.2 ⟨hhead, htail⟩
      next hne =>
        refine List.pairwise_cons.2 ⟨fun d hd => ?_, ih htail⟩
        rcases Memory.mem_put hd with rfl | hd
        · exact lt_of_le_of_ne (not_lt.1 hlt) (Ne.symm hne)
        · exact hhead d hd

/-- An address below every listed one has no listed value. -/
theorem Memory.byteAt_eq_none {m : Memory} {a : Nat} (h : ∀ c ∈ m, a < c.1) : Memory.byteAt m a = none := by
  induction m with
  | nil => rfl
  | cons c m ih =>
    obtain ⟨a', b'⟩ := c
    have := h (a', b') (by simp)
    rw [Memory.byteAt_cons, if_neg (by simp at this; omega), ih fun d hd => h d (by simp [hd])]

/-- Equal memories are equal data: two memories in canonical form that list the same byte at every address are equal. -/
theorem Memory.eq_of_byteAt {m m' : Memory} (h : Memory.wf m) (h' : Memory.wf m')
    (hread : ∀ a, Memory.byteAt m a = Memory.byteAt m' a) : m = m' := by
  induction m generalizing m' with
  | nil =>
    cases m' with
    | nil => rfl
    | cons c m' => obtain ⟨a, b⟩ := c; simpa [Memory.byteAt_cons] using hread a
  | cons c m ih =>
    cases m' with
    | nil => obtain ⟨a, b⟩ := c; simpa [Memory.byteAt_cons] using hread a
    | cons c' m' =>
      obtain ⟨a, b⟩ := c
      obtain ⟨a', b'⟩ := c'
      obtain ⟨hhead, htail⟩ := List.pairwise_cons.1 h
      obtain ⟨hhead', htail'⟩ := List.pairwise_cons.1 h'
      have below : ¬ a < a' := fun hlt => by
        have := hread a
        rw [Memory.byteAt_cons, if_pos rfl, Memory.byteAt_eq_none] at this
        · simp at this
        · intro d hd
          rcases List.mem_cons.1 hd with rfl | hd
          · exact hlt
          · exact lt_trans hlt (hhead' d hd)
      have above : ¬ a' < a := fun hlt => by
        have := hread a'
        rw [Memory.byteAt_cons (a := a') (a' := a'), if_pos rfl, Memory.byteAt_eq_none] at this
        · simp at this
        · intro d hd
          rcases List.mem_cons.1 hd with rfl | hd
          · exact hlt
          · exact lt_trans hlt (hhead d hd)
      obtain rfl : a = a' := by omega
      have hb := hread a
      simp only [Memory.byteAt_cons, if_true, Option.some.injEq] at hb
      subst hb
      congr 1
      refine ih htail htail' fun x => ?_
      by_cases hx : a = x
      · subst hx
        rw [Memory.byteAt_eq_none hhead, Memory.byteAt_eq_none hhead']
      · simpa [Memory.byteAt_cons, hx] using hread x

end Sys2Proof.Machine
end

