-- ==== Sys2Proof/Laws/State.lean ====
section
/-! SUPPORT. What each update of the state does to each field and to each byte, so that no later proof unfolds one. -/

namespace Sys2Proof.Machine

/-! A memory write touches no other field. -/

@[simp] theorem State.setMem_status (s : State) (sp : Space) (m : Memory) : (s.setMem sp m).status = s.status := by cases sp <;> rfl
@[simp] theorem State.setMem_width (s : State) (sp : Space) (m : Memory) : (s.setMem sp m).width = s.width := by cases sp <;> rfl
@[simp] theorem State.setMem_height (s : State) (sp : Space) (m : Memory) : (s.setMem sp m).height = s.height := by cases sp <;> rfl
@[simp] theorem State.setMem_pcc (s : State) (sp : Space) (m : Memory) : (s.setMem sp m).pcc = s.pcc := by cases sp <;> rfl
@[simp] theorem State.setMem_channels (s : State) (sp : Space) (m : Memory) : (s.setMem sp m).channels = s.channels := by cases sp <;> rfl
@[simp] theorem State.setMem_plen (s : State) (sp : Space) (m : Memory) : (s.setMem sp m).plen = s.plen := by cases sp <;> rfl
@[simp] theorem State.setMem_rlen (s : State) (sp : Space) (m : Memory) : (s.setMem sp m).rlen = s.rlen := by cases sp <;> rfl
@[simp] theorem State.setMem_bits (s : State) (sp : Space) (m : Memory) : (s.setMem sp m).bits = s.bits := by cases sp <;> rfl
@[simp] theorem State.setMem_cursor (s : State) (sp : Space) (m : Memory) : (s.setMem sp m).cursor = s.cursor := by cases sp <;> rfl
@[simp] theorem State.setMem_len (s : State) (sp : Space) (m : Memory) : (s.setMem sp m).len = s.len := by cases sp <;> rfl
@[simp] theorem State.setMem_asm (s : State) (sp : Space) (m : Memory) : (s.setMem sp m).asm = s.asm := by cases sp <;> rfl
@[simp] theorem State.setMem_hostQueue (s : State) (sp : Space) (m : Memory) : (s.setMem sp m).hostQueue = s.hostQueue := by cases sp <;> rfl
@[simp] theorem State.setMem_readData (s : State) (sp : Space) (m : Memory) : (s.setMem sp m).readData = s.readData := by cases sp <;> rfl
@[simp] theorem State.setMem_opResult (s : State) (sp : Space) (m : Memory) : (s.setMem sp m).opResult = s.opResult := by cases sp <;> rfl
@[simp] theorem State.setMem_resets (s : State) (sp : Space) (m : Memory) : (s.setMem sp m).resets = s.resets := by cases sp <;> rfl
@[simp] theorem State.setMem_draws (s : State) (sp : Space) (m : Memory) : (s.setMem sp m).draws = s.draws := by cases sp <;> rfl

@[simp] theorem State.writeByte_status (s : State) (sp : Space) (a : Nat) (b : Byte) : (s.writeByte sp a b).status = s.status := by
  simp [State.writeByte]
@[simp] theorem State.writeByte_width (s : State) (sp : Space) (a : Nat) (b : Byte) : (s.writeByte sp a b).width = s.width := by
  simp [State.writeByte]
@[simp] theorem State.writeByte_height (s : State) (sp : Space) (a : Nat) (b : Byte) : (s.writeByte sp a b).height = s.height := by
  simp [State.writeByte]
@[simp] theorem State.writeByte_pcc (s : State) (sp : Space) (a : Nat) (b : Byte) : (s.writeByte sp a b).pcc = s.pcc := by
  simp [State.writeByte]
@[simp] theorem State.writeByte_channels (s : State) (sp : Space) (a : Nat) (b : Byte) : (s.writeByte sp a b).channels = s.channels := by
  simp [State.writeByte]
@[simp] theorem State.writeByte_plen (s : State) (sp : Space) (a : Nat) (b : Byte) : (s.writeByte sp a b).plen = s.plen := by
  simp [State.writeByte]
@[simp] theorem State.writeByte_rlen (s : State) (sp : Space) (a : Nat) (b : Byte) : (s.writeByte sp a b).rlen = s.rlen := by
  simp [State.writeByte]
@[simp] theorem State.writeByte_bits (s : State) (sp : Space) (a : Nat) (b : Byte) : (s.writeByte sp a b).bits = s.bits := by
  simp [State.writeByte]
@[simp] theorem State.writeByte_cursor (s : State) (sp : Space) (a : Nat) (b : Byte) : (s.writeByte sp a b).cursor = s.cursor := by
  simp [State.writeByte]
@[simp] theorem State.writeByte_len (s : State) (sp : Space) (a : Nat) (b : Byte) : (s.writeByte sp a b).len = s.len := by
  simp [State.writeByte]
@[simp] theorem State.writeByte_asm (s : State) (sp : Space) (a : Nat) (b : Byte) : (s.writeByte sp a b).asm = s.asm := by
  simp [State.writeByte]
@[simp] theorem State.writeByte_hostQueue (s : State) (sp : Space) (a : Nat) (b : Byte) : (s.writeByte sp a b).hostQueue = s.hostQueue := by
  simp [State.writeByte]
@[simp] theorem State.writeByte_readData (s : State) (sp : Space) (a : Nat) (b : Byte) : (s.writeByte sp a b).readData = s.readData := by
  simp [State.writeByte]
@[simp] theorem State.writeByte_opResult (s : State) (sp : Space) (a : Nat) (b : Byte) : (s.writeByte sp a b).opResult = s.opResult := by
  simp [State.writeByte]
@[simp] theorem State.writeByte_resets (s : State) (sp : Space) (a : Nat) (b : Byte) : (s.writeByte sp a b).resets = s.resets := by
  simp [State.writeByte]
@[simp] theorem State.writeByte_draws (s : State) (sp : Space) (a : Nat) (b : Byte) : (s.writeByte sp a b).draws = s.draws := by
  simp [State.writeByte]

/-- Every memory but the one replaced is as before. -/
theorem State.mem_setMem (s : State) (sp sp' : Space) (m : Memory) :
    (s.setMem sp m).mem sp' = if sp' = sp then m else s.mem sp' := by
  cases sp <;> cases sp' <;> rfl

/-- A read after a write: the byte written at that place, every other byte of every memory as before
(20_memory.md R49). -/
theorem State.readByte_writeByte (s : State) (sp sp' : Space) (a x : Nat) (b : Byte) :
    (s.writeByte sp a b).readByte sp' x = if sp' = sp ∧ x = a then b else s.readByte sp' x := by
  simp only [State.readByte, State.writeByte, State.mem_setMem, State.setMem_resets]
  by_cases hsp : sp' = sp
  · subst hsp
    simp only [if_true, true_and, Memory.byteAt_put]
    split <;> simp
  · simp [hsp]

/-- A write keeps all four memories in canonical form. -/
theorem State.writeByte_memoriesWf {s : State} (h : s.memoriesWf) (sp : Space) (a : Nat) (b : Byte) :
    (s.writeByte sp a b).memoriesWf := by
  obtain ⟨h1, h2, h3, h4⟩ := h
  cases sp
  · exact ⟨Memory.put_wf h1 a b, h2, h3, h4⟩
  · exact ⟨h1, Memory.put_wf h2 a b, h3, h4⟩
  · exact ⟨h1, h2, Memory.put_wf h3 a b, h4⟩
  · exact ⟨h1, h2, h3, Memory.put_wf h4 a b⟩

/-- A byte read depends on its memory and on the reset count alone. -/
theorem State.readByte_congr {s t : State} {sp : Space} (hm : t.mem sp = s.mem sp) (hr : t.resets = s.resets) (a : Nat) :
    t.readByte sp a = s.readByte sp a := by
  simp [State.readByte, hm, hr]

/-! The start of a command (30_encoding.md R67). -/

@[simp] theorem startCommand_status (s : State) : (startCommand s).status = statusRunning := rfl
@[simp] theorem startCommand_width (s : State) : (startCommand s).width = s.width := rfl
@[simp] theorem startCommand_height (s : State) : (startCommand s).height = s.height := rfl
@[simp] theorem startCommand_pcc (s : State) : (startCommand s).pcc = s.pcc := rfl
@[simp] theorem startCommand_channels (s : State) : (startCommand s).channels = s.channels := rfl
@[simp] theorem startCommand_plen (s : State) : (startCommand s).plen = s.plen := rfl
@[simp] theorem startCommand_rlen (s : State) : (startCommand s).rlen = s.rlen := rfl
@[simp] theorem startCommand_pixIn (s : State) : (startCommand s).pixIn = s.pixIn := rfl
@[simp] theorem startCommand_pixOut (s : State) : (startCommand s).pixOut = s.pixOut := rfl
@[simp] theorem startCommand_payIn (s : State) : (startCommand s).payIn = s.payIn := rfl
@[simp] theorem startCommand_payOut (s : State) : (startCommand s).payOut = s.payOut := rfl
@[simp] theorem startCommand_bits (s : State) : (startCommand s).bits = [] := rfl
@[simp] theorem startCommand_cursor (s : State) : (startCommand s).cursor = ⟨0, 0, 0⟩ := rfl
@[simp] theorem startCommand_len (s : State) : (startCommand s).len = s.len := rfl
@[simp] theorem startCommand_asm (s : State) : (startCommand s).asm = s.asm := rfl
@[simp] theorem startCommand_hostQueue (s : State) : (startCommand s).hostQueue = s.hostQueue := rfl
@[simp] theorem startCommand_readData (s : State) : (startCommand s).readData = s.readData := rfl
@[simp] theorem startCommand_opResult (s : State) : (startCommand s).opResult = s.opResult := rfl
@[simp] theorem startCommand_resets (s : State) : (startCommand s).resets = s.resets := rfl
@[simp] theorem startCommand_draws (s : State) : (startCommand s).draws = s.draws := rfl
@[simp] theorem startCommand_mem (s : State) (sp : Space) : (startCommand s).mem sp = s.mem sp := by cases sp <;> rfl

/-! The end of a command leaves the working state undefined (log 5). -/

@[simp] theorem releaseWorking_status (s : State) : (releaseWorking s).status = s.status := rfl
@[simp] theorem releaseWorking_width (s : State) : (releaseWorking s).width = s.width := rfl
@[simp] theorem releaseWorking_height (s : State) : (releaseWorking s).height = s.height := rfl
@[simp] theorem releaseWorking_pcc (s : State) : (releaseWorking s).pcc = s.pcc := rfl
@[simp] theorem releaseWorking_channels (s : State) : (releaseWorking s).channels = s.channels := rfl
@[simp] theorem releaseWorking_plen (s : State) : (releaseWorking s).plen = s.plen := rfl
@[simp] theorem releaseWorking_rlen (s : State) : (releaseWorking s).rlen = s.rlen := rfl
@[simp] theorem releaseWorking_pixIn (s : State) : (releaseWorking s).pixIn = s.pixIn := rfl
@[simp] theorem releaseWorking_pixOut (s : State) : (releaseWorking s).pixOut = s.pixOut := rfl
@[simp] theorem releaseWorking_payIn (s : State) : (releaseWorking s).payIn = s.payIn := rfl
@[simp] theorem releaseWorking_payOut (s : State) : (releaseWorking s).payOut = s.payOut := rfl
@[simp] theorem releaseWorking_bits (s : State) : (releaseWorking s).bits = Config.freeBits s.draws := rfl
@[simp] theorem releaseWorking_cursor (s : State) : (releaseWorking s).cursor = Config.freeCursor s.draws := rfl
@[simp] theorem releaseWorking_len (s : State) : (releaseWorking s).len = Config.freeLen s.draws := rfl
@[simp] theorem releaseWorking_asm (s : State) : (releaseWorking s).asm = Config.freeAsm s.draws := rfl
@[simp] theorem releaseWorking_hostQueue (s : State) : (releaseWorking s).hostQueue = s.hostQueue := rfl
@[simp] theorem releaseWorking_readData (s : State) : (releaseWorking s).readData = s.readData := rfl
@[simp] theorem releaseWorking_opResult (s : State) : (releaseWorking s).opResult = s.opResult := rfl
@[simp] theorem releaseWorking_resets (s : State) : (releaseWorking s).resets = s.resets := rfl
@[simp] theorem releaseWorking_draws (s : State) : (releaseWorking s).draws = s.draws + 1 := rfl
@[simp] theorem releaseWorking_mem (s : State) (sp : Space) : (releaseWorking s).mem sp = s.mem sp := by cases sp <;> rfl

/-! Error entry (60_exceptions.md R166). -/

@[simp] theorem raise_status (e : CodecError) (s : State) : (raise e s).status = statusError e := rfl
@[simp] theorem raise_width (e : CodecError) (s : State) : (raise e s).width = s.width := rfl
@[simp] theorem raise_height (e : CodecError) (s : State) : (raise e s).height = s.height := rfl
@[simp] theorem raise_pcc (e : CodecError) (s : State) : (raise e s).pcc = s.pcc := rfl
@[simp] theorem raise_channels (e : CodecError) (s : State) : (raise e s).channels = s.channels := rfl
@[simp] theorem raise_plen (e : CodecError) (s : State) : (raise e s).plen = s.plen := rfl
@[simp] theorem raise_rlen (e : CodecError) (s : State) : (raise e s).rlen = s.rlen := rfl
@[simp] theorem raise_pixIn (e : CodecError) (s : State) : (raise e s).pixIn = s.pixIn := rfl
@[simp] theorem raise_pixOut (e : CodecError) (s : State) : (raise e s).pixOut = s.pixOut := rfl
@[simp] theorem raise_payIn (e : CodecError) (s : State) : (raise e s).payIn = s.payIn := rfl
@[simp] theorem raise_payOut (e : CodecError) (s : State) : (raise e s).payOut = s.payOut := rfl
@[simp] theorem raise_bits (e : CodecError) (s : State) : (raise e s).bits = Config.freeBits s.draws := rfl
@[simp] theorem raise_cursor (e : CodecError) (s : State) : (raise e s).cursor = Config.freeCursor s.draws := rfl
@[simp] theorem raise_len (e : CodecError) (s : State) : (raise e s).len = Config.freeLen s.draws := rfl
@[simp] theorem raise_asm (e : CodecError) (s : State) : (raise e s).asm = Config.freeAsm s.draws := rfl
@[simp] theorem raise_hostQueue (e : CodecError) (s : State) : (raise e s).hostQueue = s.hostQueue := rfl
@[simp] theorem raise_readData (e : CodecError) (s : State) : (raise e s).readData = s.readData := rfl
@[simp] theorem raise_opResult (e : CodecError) (s : State) : (raise e s).opResult = s.opResult := rfl
@[simp] theorem raise_resets (e : CodecError) (s : State) : (raise e s).resets = s.resets := rfl
@[simp] theorem raise_draws (e : CodecError) (s : State) : (raise e s).draws = s.draws + 1 := rfl
@[simp] theorem raise_mem (e : CodecError) (s : State) (sp : Space) : (raise e s).mem sp = s.mem sp := by cases sp <;> rfl

/-! Normal end (60_exceptions.md R167). -/

@[simp] theorem complete_status (s : State) : (complete s).status = statusComplete := rfl
@[simp] theorem complete_width (s : State) : (complete s).width = s.width := rfl
@[simp] theorem complete_height (s : State) : (complete s).height = s.height := rfl
@[simp] theorem complete_pcc (s : State) : (complete s).pcc = s.pcc := rfl
@[simp] theorem complete_channels (s : State) : (complete s).channels = s.channels := rfl
@[simp] theorem complete_plen (s : State) : (complete s).plen = s.plen := rfl
@[simp] theorem complete_rlen (s : State) : (complete s).rlen = s.rlen := rfl
@[simp] theorem complete_pixIn (s : State) : (complete s).pixIn = s.pixIn := rfl
@[simp] theorem complete_pixOut (s : State) : (complete s).pixOut = s.pixOut := rfl
@[simp] theorem complete_payIn (s : State) : (complete s).payIn = s.payIn := rfl
@[simp] theorem complete_payOut (s : State) : (complete s).payOut = s.payOut := rfl
@[simp] theorem complete_bits (s : State) : (complete s).bits = Config.freeBits s.draws := rfl
@[simp] theorem complete_cursor (s : State) : (complete s).cursor = Config.freeCursor s.draws := rfl
@[simp] theorem complete_len (s : State) : (complete s).len = Config.freeLen s.draws := rfl
@[simp] theorem complete_asm (s : State) : (complete s).asm = Config.freeAsm s.draws := rfl
@[simp] theorem complete_hostQueue (s : State) : (complete s).hostQueue = s.hostQueue := rfl
@[simp] theorem complete_readData (s : State) : (complete s).readData = s.readData := rfl
@[simp] theorem complete_opResult (s : State) : (complete s).opResult = s.opResult := rfl
@[simp] theorem complete_resets (s : State) : (complete s).resets = s.resets := rfl
@[simp] theorem complete_draws (s : State) : (complete s).draws = s.draws + 1 := rfl
@[simp] theorem complete_mem (s : State) (sp : Space) : (complete s).mem sp = s.mem sp := by cases sp <;> rfl

/-! Reset (70_reset_and_hazards.md R191). -/

@[simp] theorem applyReset_status (s : State) : (applyReset s).status = 0 := rfl
@[simp] theorem applyReset_width (s : State) : (applyReset s).width = 0 := rfl
@[simp] theorem applyReset_height (s : State) : (applyReset s).height = 0 := rfl
@[simp] theorem applyReset_pcc (s : State) : (applyReset s).pcc = 0 := rfl
@[simp] theorem applyReset_channels (s : State) : (applyReset s).channels = 0 := rfl
@[simp] theorem applyReset_plen (s : State) : (applyReset s).plen = 0 := rfl
@[simp] theorem applyReset_rlen (s : State) : (applyReset s).rlen = 0 := rfl
@[simp] theorem applyReset_pixIn (s : State) : (applyReset s).pixIn = [] := rfl
@[simp] theorem applyReset_pixOut (s : State) : (applyReset s).pixOut = [] := rfl
@[simp] theorem applyReset_payIn (s : State) : (applyReset s).payIn = [] := rfl
@[simp] theorem applyReset_payOut (s : State) : (applyReset s).payOut = [] := rfl
@[simp] theorem applyReset_bits (s : State) : (applyReset s).bits = [] := rfl
@[simp] theorem applyReset_cursor (s : State) : (applyReset s).cursor = ⟨0, 0, 0⟩ := rfl
@[simp] theorem applyReset_len (s : State) : (applyReset s).len = 0 := rfl
@[simp] theorem applyReset_asm (s : State) : (applyReset s).asm = 0 := rfl
@[simp] theorem applyReset_hostQueue (s : State) : (applyReset s).hostQueue = s.hostQueue := rfl
@[simp] theorem applyReset_readData (s : State) : (applyReset s).readData = s.readData := rfl
@[simp] theorem applyReset_opResult (s : State) : (applyReset s).opResult = s.opResult := rfl
@[simp] theorem applyReset_resets (s : State) : (applyReset s).resets = s.resets + 1 := rfl
@[simp] theorem applyReset_draws (s : State) : (applyReset s).draws = s.draws := rfl
@[simp] theorem applyReset_mem (s : State) (sp : Space) : (applyReset s).mem sp = [] := by cases sp <;> rfl

/-! Taking the working state of another state. -/

@[simp] theorem State.withWorkingOf_status (s t : State) : (s.withWorkingOf t).status = s.status := rfl
@[simp] theorem State.withWorkingOf_width (s t : State) : (s.withWorkingOf t).width = s.width := rfl
@[simp] theorem State.withWorkingOf_height (s t : State) : (s.withWorkingOf t).height = s.height := rfl
@[simp] theorem State.withWorkingOf_pcc (s t : State) : (s.withWorkingOf t).pcc = s.pcc := rfl
@[simp] theorem State.withWorkingOf_channels (s t : State) : (s.withWorkingOf t).channels = s.channels := rfl
@[simp] theorem State.withWorkingOf_plen (s t : State) : (s.withWorkingOf t).plen = s.plen := rfl
@[simp] theorem State.withWorkingOf_rlen (s t : State) : (s.withWorkingOf t).rlen = s.rlen := rfl
@[simp] theorem State.withWorkingOf_pixIn (s t : State) : (s.withWorkingOf t).pixIn = s.pixIn := rfl
@[simp] theorem State.withWorkingOf_pixOut (s t : State) : (s.withWorkingOf t).pixOut = s.pixOut := rfl
@[simp] theorem State.withWorkingOf_payIn (s t : State) : (s.withWorkingOf t).payIn = s.payIn := rfl
@[simp] theorem State.withWorkingOf_payOut (s t : State) : (s.withWorkingOf t).payOut = s.payOut := rfl
@[simp] theorem State.withWorkingOf_bits (s t : State) : (s.withWorkingOf t).bits = t.bits := rfl
@[simp] theorem State.withWorkingOf_cursor (s t : State) : (s.withWorkingOf t).cursor = t.cursor := rfl
@[simp] theorem State.withWorkingOf_len (s t : State) : (s.withWorkingOf t).len = t.len := rfl
@[simp] theorem State.withWorkingOf_asm (s t : State) : (s.withWorkingOf t).asm = t.asm := rfl
@[simp] theorem State.withWorkingOf_hostQueue (s t : State) : (s.withWorkingOf t).hostQueue = s.hostQueue := rfl
@[simp] theorem State.withWorkingOf_readData (s t : State) : (s.withWorkingOf t).readData = s.readData := rfl
@[simp] theorem State.withWorkingOf_opResult (s t : State) : (s.withWorkingOf t).opResult = s.opResult := rfl
@[simp] theorem State.withWorkingOf_resets (s t : State) : (s.withWorkingOf t).resets = s.resets := rfl
@[simp] theorem State.withWorkingOf_draws (s t : State) : (s.withWorkingOf t).draws = t.draws := rfl
@[simp] theorem State.withWorkingOf_mem (s t : State) (sp : Space) : (s.withWorkingOf t).mem sp = s.mem sp := by cases sp <;> rfl

/-! What the updates leave readable. -/

@[simp] theorem startCommand_readByte (s : State) (sp : Space) (a : Nat) : (startCommand s).readByte sp a = s.readByte sp a := by
  cases sp <;> rfl

@[simp] theorem releaseWorking_readByte (s : State) (sp : Space) (a : Nat) : (releaseWorking s).readByte sp a = s.readByte sp a := by
  cases sp <;> rfl

@[simp] theorem raise_readByte (e : CodecError) (s : State) (sp : Space) (a : Nat) : (raise e s).readByte sp a = s.readByte sp a := by
  cases sp <;> rfl

@[simp] theorem complete_readByte (s : State) (sp : Space) (a : Nat) : (complete s).readByte sp a = s.readByte sp a := by
  cases sp <;> rfl

/-- After reset every byte of every memory is a fresh unspecified value (20_memory.md R45). -/
@[simp] theorem applyReset_readByte (s : State) (sp : Space) (a : Nat) :
    (applyReset s).readByte sp a = Config.unwrittenByte (s.resets + 1) sp a := by
  cases sp <;> rfl

@[simp] theorem startCommand_operands (s : State) : (startCommand s).operands = s.operands := rfl

/-- Reading one of the four memories by its name. -/
@[simp] theorem State.mem_pixIn (s : State) : s.mem .pixIn = s.pixIn := rfl
@[simp] theorem State.mem_pixOut (s : State) : s.mem .pixOut = s.pixOut := rfl
@[simp] theorem State.mem_payIn (s : State) : s.mem .payIn = s.payIn := rfl
@[simp] theorem State.mem_payOut (s : State) : s.mem .payOut = s.payOut := rfl

/-- STATUS after an error is one of the words it may hold between commands, unless the error is the one that is never
raised (10_state.md R12, 60_exceptions.md R165). -/
theorem statusError_idle {e : CodecError} (h : e ≠ .channelCountMismatch) : statusError e ∈ idleStatusWords := by
  cases e <;> first | decide | exact absurd rfl h

theorem statusComplete_idle : statusComplete ∈ idleStatusWords := by simp [statusComplete, idleStatusWords]

/-! The STATUS fields after the two ends of a command (60_exceptions.md R166, R167). -/

@[simp] theorem complete_busy (s : State) : (complete s).busy = false := by rw [State.busy, complete_status]; rfl
@[simp] theorem complete_done (s : State) : (complete s).done = true := by rw [State.done, complete_status]; rfl
@[simp] theorem complete_err (s : State) : (complete s).err = false := by rw [State.err, complete_status]; rfl
@[simp] theorem complete_ecode (s : State) : (complete s).ecode = 0 := by rw [State.ecode, complete_status]; rfl
@[simp] theorem raise_busy (e : CodecError) (s : State) : (raise e s).busy = false := by
  rw [State.busy, raise_status]; cases e <;> rfl
@[simp] theorem raise_done (e : CodecError) (s : State) : (raise e s).done = true := by
  rw [State.done, raise_status]; cases e <;> rfl
@[simp] theorem raise_err (e : CodecError) (s : State) : (raise e s).err = true := by
  rw [State.err, raise_status]; cases e <;> rfl
@[simp] theorem raise_ecode (e : CodecError) (s : State) : (raise e s).ecode = e.code.toNat := by
  rw [State.ecode, raise_status]; cases e <;> rfl

/-- In a state of the invariant no command is running. -/
theorem not_busy_of_idle {s : State} (h : s.status ∈ idleStatusWords) : s.busy = false := by
  simp only [idleStatusWords, List.mem_cons, List.not_mem_nil, or_false] at h
  rcases h with h | h | h | h | h <;> rw [State.busy, h] <;> rfl

end Sys2Proof.Machine
end

