-- ==== Sys2Proof/Laws/BitFraming.lean ====
section
/-! SUPPORT. The laws of BitFraming: the frame in closed form, and what FRAME and UNFRAME do. -/

namespace Sys2Proof.Machine

@[simp] theorem bitsBE_length (n v : Nat) : (bitsBE n v).length = n := by simp [bitsBE]

@[simp] theorem valBE_nil : valBE [] = 0 := rfl

@[simp] theorem valBE_append_singleton (s : List Bool) (b : Bool) : valBE (s ++ [b]) = 2 * valBE s + b.toNat := by
  simp [valBE, List.foldl_append]

/-- `n` bits spell a number below `2^n`. -/
theorem valBE_lt (s : List Bool) : valBE s < 2 ^ s.length := by
  induction s using List.reverseRecOn with
  | nil => simp
  | append_singleton s b ih =>
    rw [valBE_append_singleton, List.length_append, List.length_singleton, pow_succ]
    have := b.toNat_le
    omega

/-- Bit `j` of the number a sequence spells is the element `j` places from its end. -/
theorem valBE_testBit (s : List Bool) (j : Nat) (h : j < s.length) :
    (valBE s).testBit j = s.getD (s.length - 1 - j) false := by
  induction s using List.reverseRecOn generalizing j with
  | nil => simp at h
  | append_singleton s b ih =>
    rw [valBE_append_singleton]
    cases j with
    | zero => cases b <;> simp [Nat.testBit_zero]
    | succ j =>
      have hj : j < s.length := by simpa using h
      have hdiv : (2 * valBE s + b.toNat) / 2 = valBE s := by have := b.toNat_le; omega
      rw [Nat.testBit_succ, hdiv, ih j hj]
      have hlt : s.length - 1 - j < s.length := by omega
      simp only [List.length_append, List.length_singleton]
      rw [show s.length + 1 - 1 - (j + 1) = s.length - 1 - j by omega, List.getD_append _ _ _ _ hlt]

/-- Two numbers below `2^n` with the same `n` bits are equal. -/
theorem eq_of_testBit_lt {n a b : Nat} (ha : a < 2 ^ n) (hb : b < 2 ^ n)
    (h : ∀ j < n, a.testBit j = b.testBit j) : a = b := by
  refine Nat.eq_of_testBit_eq fun j => ?_
  by_cases hj : j < n
  · exact h j hj
  · rw [Nat.testBit_lt_two_pow (lt_of_lt_of_le ha (Nat.pow_le_pow_right (by decide) (not_lt.1 hj))),
      Nat.testBit_lt_two_pow (lt_of_lt_of_le hb (Nat.pow_le_pow_right (by decide) (not_lt.1 hj)))]

/-- `val_be` reads back what `bits_be` wrote. -/
theorem valBE_bitsBE {n v : Nat} (h : v < 2 ^ n) : valBE (bitsBE n v) = v := by
  refine eq_of_testBit_lt (by simpa using valBE_lt (bitsBE n v)) h fun j hj => ?_
  rw [valBE_testBit _ _ (by simpa using hj), bitsBE_length, List.getD_eq_getElem?_getD]
  have hlt : n - 1 - j < n := by omega
  simp [bitsBE, hlt, show n - 1 - (n - 1 - j) = j by omega]

/-- The number a sequence spells, as a sum (40_bitframing.md R85, 30_encoding.md R72). -/
theorem valBE_eq_sum (s : List Bool) :
    valBE s = ∑ i ∈ Finset.range s.length, (s.getD i false).toNat * 2 ^ (s.length - 1 - i) := by
  induction s using List.reverseRecOn with
  | nil => simp
  | append_singleton s b ih =>
    rw [valBE_append_singleton, List.length_append, List.length_singleton, Finset.sum_range_succ, ih, Finset.mul_sum]
    congr 1
    · refine Finset.sum_congr rfl fun i hi => ?_
      have hi : i < s.length := Finset.mem_range.1 hi
      rw [List.getD_append _ _ _ _ hi, show s.length + 1 - 1 - i = s.length - 1 - i + 1 by omega, pow_succ]
      ring
    · simp

/-- The number that consecutive positions of a tabulated sequence spell. -/
theorem valBE_map_range (bit : Nat → Bool) (start width : Nat) :
    valBE ((List.range width).map fun r => bit (start + r)) = spelled bit start width := by
  rw [valBE_eq_sum, List.length_map, List.length_range, spelled]
  refine Finset.sum_congr rfl fun i hi => ?_
  rw [List.getD_eq_getElem?_getD]
  simp [Finset.mem_range.1 hi]

/-- A tabulated sequence, cut: `width` elements from `start`. -/
theorem take_drop_map_range (bit : Nat → Bool) {n start width : Nat} (h : start + width ≤ n) :
    (((List.range n).map bit).drop start).take width = (List.range width).map fun r => bit (start + r) := by
  apply List.ext_getElem
  · simp; omega
  · intro i h1 h2
    simp

/-- The bits of one payload byte are the frame's positions `32 + 8*j .. 32 + 8*j + 7` (40_bitframing.md R83). -/
theorem bitsBE_payloadByte (L : Nat) (pay : Nat → Byte) (j : Nat) :
    bitsBE 8 (pay j).toNat = (List.range 8).map fun r => frameBit L pay (32 + 8 * j + r) := by
  refine List.map_congr_left fun r hr => ?_
  have hr : r < 8 := List.mem_range.1 hr
  rw [frameBit, if_neg (by omega), show 32 + 8 * j + r - 32 = 8 * j + r by omega,
    show (8 * j + r) / 8 = j by omega, show (8 * j + r) % 8 = r by omega]
  simp [BitVec.getLsbD]

/-- The length field of the frame is its first 32 positions (40_bitframing.md R83). -/
theorem bitsBE_lengthField (L : Nat) (pay : Nat → Byte) : bitsBE 32 L = (List.range 32).map (frameBit L pay) := by
  refine List.map_congr_left fun i hi => ?_
  rw [frameBit, if_pos (List.mem_range.1 hi)]

/-- What FRAME does after its first `n` payload bytes. -/
theorem appendPayload_spec (L : Nat) (s : State) (hbits : s.bits = bitsBE 32 L) (n : Nat) :
    let t := (List.range n).foldl appendPayloadByte s
    t = { s with bits := t.bits, asm := t.asm } ∧
    t.bits = (List.range (32 + 8 * n)).map (frameBit L (s.readByte .payIn)) ∧
    t.asm = if n = 0 then s.asm else s.readByte .payIn (n - 1) := by
  induction n with
  | zero => exact ⟨rfl, by rw [← bitsBE_lengthField]; exact hbits, rfl⟩
  | succ n ih =>
    obtain ⟨hframe, hb, -⟩ := ih
    simp only [List.range_succ, List.foldl_append, List.foldl_cons, List.foldl_nil]
    generalize (List.range n).foldl appendPayloadByte s = t at hframe hb
    have hread : ∀ a, t.readByte .payIn a = s.readByte .payIn a := fun a => by rw [hframe]; rfl
    refine ⟨?_, ?_, ?_⟩
    · rw [appendPayloadByte]; rw [hframe]
    · rw [appendPayloadByte]
      simp only [hread, hb]
      rw [bitsBE_payloadByte L (s.readByte .payIn), show 32 + 8 * (n + 1) = 32 + 8 * n + 8 by ring,
        List.range_add (n := 32 + 8 * n), List.map_append, List.map_map]
      rfl
    · rw [appendPayloadByte]
      simp [hread]

/-- What FRAME does: BITS is the frame in closed form (40_bitframing.md R83), LEN is the length, the byte assembly
register holds the last payload byte read, and nothing else changes. -/
theorem frameOp_spec (L : Word) (s : State) :
    frameOp L s = { s with
      bits := (List.range (frameLength L.toNat)).map (frameBit L.toNat (s.readByte .payIn))
      len := L
      asm := if L.toNat = 0 then s.asm else s.readByte .payIn (L.toNat - 1) } := by
  obtain ⟨hframe, hb, hasm⟩ := appendPayload_spec L.toNat { s with bits := bitsBE 32 L.toNat, len := L } rfl L.toNat
  rw [frameOp, hframe, hb, hasm]
  rfl

/-- What UNFRAME's payload loop does: it writes the bytes BITS spells to PAY_OUT from address 0, and nothing else but
the byte assembly register. -/
theorem extractPayload_spec (s : State) (n : Nat) :
    let t := (List.range n).foldl extractPayloadByte s
    t = { s with asm := t.asm, payOut := t.payOut } ∧
    (∀ a, t.readByte .payOut a =
      if a < n then BitVec.ofNat 8 (valBE ((s.bits.drop (32 + 8 * a)).take 8)) else s.readByte .payOut a) ∧
    (Memory.wf s.payOut → Memory.wf t.payOut) := by
  induction n with
  | zero => exact ⟨rfl, by simp, by simp⟩
  | succ n ih =>
    obtain ⟨hframe, hread, hwf⟩ := ih
    simp only [List.range_succ, List.foldl_append, List.foldl_cons, List.foldl_nil]
    generalize (List.range n).foldl extractPayloadByte s = t at hframe hread hwf
    have hb : t.bits = s.bits := by rw [hframe]
    refine ⟨?_, fun a => ?_, fun h => ?_⟩
    · rw [extractPayloadByte, hframe]; rfl
    · rw [extractPayloadByte, State.readByte_writeByte]
      have hasm : ∀ b, State.readByte { t with asm := b } .payOut a = t.readByte .payOut a := fun b => rfl
      rw [hasm, hread, hb]
      by_cases ha : a = n
      · subst ha; simp
      · simp only [ha, and_false, if_false]
        by_cases hlt : a < n
        · rw [if_pos hlt, if_pos (by omega)]
        · rw [if_neg hlt, if_neg (by omega)]
    · exact Memory.put_wf (hwf h) _ _

/-- UNFRAME fails exactly when the bits available are fewer than a frame needs, always with TruncatedFrame
(40_bitframing.md R85, R86). -/
theorem unframeOp_error_iff (s : State) (e : CodecError) :
    unframeOp s = .error e ↔
      e = .truncatedFrame ∧ (s.bits.length < 32 ∨ s.bits.length < frameLength (valBE (s.bits.take 32))) := by
  unfold unframeOp
  split
  · simp [*, eq_comm]
  · dsimp only
    split <;> simp [*, eq_comm]

/-- What UNFRAME does when it succeeds (40_bitframing.md R85). -/
theorem unframeOp_ok {s t : State} (h : unframeOp s = .ok t) :
    32 ≤ s.bits.length ∧ frameLength t.len.toNat ≤ s.bits.length ∧
    t.len.toNat = valBE (s.bits.take 32) ∧
    t = { s with len := t.len, asm := t.asm, payOut := t.payOut } ∧
    (∀ a, t.readByte .payOut a =
      if a < t.len.toNat then BitVec.ofNat 8 (valBE ((s.bits.drop (32 + 8 * a)).take 8)) else s.readByte .payOut a) ∧
    (Memory.wf s.payOut → Memory.wf t.payOut) := by
  unfold unframeOp at h
  split at h
  · exact absurd h (by simp)
  · next h32 =>
    simp only at h
    split at h
    · exact absurd h (by simp)
    · next hlen =>
      obtain rfl := Except.ok.inj h
      obtain ⟨hframe, hread, hwf⟩ := extractPayload_spec
        { s with len := BitVec.ofNat 32 (valBE (s.bits.take 32)) } (valBE (s.bits.take 32))
      have hlt : valBE (s.bits.take 32) < 2 ^ 32 := by
        have := valBE_lt (s.bits.take 32)
        rwa [List.length_take, min_eq_left (not_lt.1 h32)] at this
      generalize (List.range (valBE (s.bits.take 32))).foldl extractPayloadByte _ = t at hframe hread hwf
      have hl : t.len.toNat = valBE (s.bits.take 32) := by
        rw [hframe]; simpa using Nat.mod_eq_of_lt hlt
      refine ⟨not_lt.1 h32, by rw [hl]; exact not_lt.1 hlen, hl, ?_, fun a => ?_, hwf⟩
      · rw [hframe]
      · rw [hl]; exact hread a

/-- UNFRAME over a tabulated sequence: the length and the bytes are the numbers its positions spell
(40_bitframing.md R85, 43_bitplanereader.md R145). -/
theorem unframe_tabulated {bit : Nat → Bool} {n : Nat} {bits : List Bool} (hb : bits = (List.range n).map bit) :
    (32 ≤ n → valBE (bits.take 32) = spelled bit 0 32) ∧
    ∀ j, 32 + 8 * j + 8 ≤ n → valBE ((bits.drop (32 + 8 * j)).take 8) = spelled bit (32 + 8 * j) 8 := by
  subst hb
  refine ⟨fun h => ?_, fun j h => ?_⟩
  · rw [← valBE_map_range, ← take_drop_map_range bit (n := n) (by omega), List.drop_zero]
  · rw [← valBE_map_range, ← take_drop_map_range bit h]

/-- The positions of a frame spell its length and its payload bytes: the framing half of the round trip
(40_bitframing.md R90). -/
theorem spelled_frame (L : Word) (pay : Nat → Byte) :
    spelled (frameBit L.toNat pay) 0 32 = L.toNat ∧
    ∀ j, spelled (frameBit L.toNat pay) (32 + 8 * j) 8 = (pay j).toNat := by
  refine ⟨?_, fun j => ?_⟩
  · rw [← valBE_map_range]
    simp only [Nat.zero_add]
    rw [← bitsBE_lengthField, valBE_bitsBE L.isLt]
  · rw [← valBE_map_range, ← bitsBE_payloadByte, valBE_bitsBE (pay j).isLt]

end Sys2Proof.Machine
end

