-- ==== Sys2Proof/Laws/Sequencer.lean ====
section
/-! SUPPORT. The laws of the sequencer and of the carrier-bit operations. -/

namespace Sys2Proof.Machine

/-- The bits of LSBSET: bit 0 is `b`, every other bit is `v`'s (41_sequencer.md R106). -/
theorem lsbSet_getLsbD (v : Byte) (b : Bool) (j : Nat) :
    (lsbSet v b).getLsbD j = if j = 0 then b else v.getLsbD j := by
  by_cases hj : j < 8
  · interval_cases j <;> cases b <;> simp [lsbSet]
  · rw [BitVec.getLsbD_of_ge _ _ (by omega), BitVec.getLsbD_of_ge _ _ (by omega), if_neg (by omega)]

/-- LSBGET reads what LSBSET set (41_sequencer.md R108 (a)). -/
@[simp] theorem lsbGet_lsbSet (v : Byte) (b : Bool) : lsbGet (lsbSet v b) = b := by
  rw [lsbGet, lsbSet_getLsbD, if_pos rfl]

/-- Dividing and reducing a pixel address by the channel count gives back pixel and channel. -/
theorem pixelAddress_div_mod {C p n : Nat} (h : n < C) :
    pixelAddress C p n / C = p ∧ pixelAddress C p n % C = n := by
  have hC : 0 < C := by omega
  constructor
  · rw [pixelAddress, Nat.mul_comm, Nat.mul_add_div hC, Nat.div_eq_of_lt h, Nat.add_zero]
  · rw [pixelAddress, Nat.mul_comm, Nat.mul_add_mod, Nat.mod_eq_of_lt h]

/-- SEQ at the position that channel `n < k` of pixel `p` carries (41_sequencer.md R101). -/
theorem seqPlace_pos {C k p n : Nat} (h : n < k) : seqPlace C k (p * k + n) = ⟨p, n, pixelAddress C p n⟩ := by
  have := pixelAddress_div_mod (C := k) (p := p) h
  rw [pixelAddress] at this
  rw [seqPlace, this.1, this.2]

/-- A selected channel of the grid lies in the grid: the address of every position below the capacity is below
`W*H*C`. -/
theorem seqPlace_lt {N C k i : Nat} (hk : 0 < k) (hkC : k ≤ C) (hi : i < N * k) : (seqPlace C k i).a < N * C := by
  have hp : i / k < N := Nat.div_lt_of_lt_mul (by rwa [Nat.mul_comm] at hi)
  have hn : i % k < C := lt_of_lt_of_le (Nat.mod_lt _ hk) hkC
  show i / k * C + i % k < N * C
  calc i / k * C + i % k < i / k * C + C := by omega
    _ = (i / k + 1) * C := by ring
    _ ≤ N * C := Nat.mul_le_mul_right _ hp

/-- SEQ run on its own always answers a next state; it writes its result and, where that is a free value, the counter that
selects it. -/
theorem execSeq_frame (i : Nat) (s : State) :
    ∃ p n a d, execSeq i s = .next { s with opResult := some (.place p n a), draws := d } := by
  unfold execSeq
  dsimp only
  split
  · exact ⟨_, _, _, _, rfl⟩
  · exact ⟨_, _, _, s.draws, rfl⟩

end Sys2Proof.Machine
end

