-- ==== Sys2Proof/Laws/BitPlaneReader.lean ====
section
/-! SUPPORT. What the DECODE pass and the command DECODE do. -/

namespace Sys2Proof.Machine

/-- What has happened once the pass has visited the positions below `bound`. -/
structure ReadDone (o : Operands) (s t : State) (bound : Nat) : Prop where
  frame : t = { s with cursor := t.cursor, bits := t.bits }
  bits : t.bits = s.bits ++ (List.range bound).map fun i => lsbGet (s.readByte .pixIn (seqPlace o.C o.k i).a)

theorem readDone_channel {o : Operands} {s t : State} {p n : Nat} (hn : n < o.k)
    (h : ReadDone o s t (p * o.k + n)) : ReadDone o s (decodeChannel o p t n) (p * o.k + (n + 1)) := by
  obtain ⟨hframe, hbits⟩ := h
  have hin : ∀ a, t.readByte .pixIn a = s.readByte .pixIn a := fun a => by rw [hframe]; rfl
  refine ⟨by rw [decodeChannel, hframe], ?_⟩
  rw [decodeChannel]
  simp only [hin, hbits, ← Nat.add_assoc, List.range_succ, List.map_append, List.map_cons, List.map_nil,
    List.append_assoc, seqPlace_pos hn]

theorem readDone_channels {o : Operands} {s t : State} {p : Nat} (h : ReadDone o s t (p * o.k)) (n : Nat)
    (hn : n ≤ o.k) : ReadDone o s ((List.range n).foldl (decodeChannel o p) t) (p * o.k + n) := by
  induction n with
  | zero => exact h
  | succ n ih =>
    simp only [List.range_succ, List.foldl_append, List.foldl_cons, List.foldl_nil]
    exact readDone_channel (by omega) (ih (by omega))

theorem readDone_pixels (o : Operands) (s : State) (p : Nat) :
    ReadDone o s ((List.range p).foldl (decodePixel o) s) (p * o.k) := by
  induction p with
  | zero => exact ⟨rfl, by simp⟩
  | succ p ih =>
    simp only [List.range_succ, List.foldl_append, List.foldl_cons, List.foldl_nil]
    obtain ⟨hframe, hbits⟩ := readDone_channels ih o.k le_rfl
    refine ⟨by rw [decodePixel, hframe], ?_⟩
    rw [show (p + 1) * o.k = p * o.k + o.k by ring]
    exact hbits

/-- What the DECODE pass does: BITS takes the lowest bit of every selected channel, and nothing else changes but the
cursor (43_bitplanereader.md R144). -/
theorem decodePass_spec (o : Operands) (s : State) : ReadDone o s (decodePass o s) o.cap :=
  readDone_pixels o s o.pixels

/-- The sequence DECODE hands to UNFRAME: `cap` carrier bits (43_bitplanereader.md R144). -/
theorem decodePass_bits (s : State) :
    (decodePass s.operands (startCommand s)).bits = (List.range s.operands.cap).map s.carrierBit := by
  rw [(decodePass_spec s.operands (startCommand s)).bits]
  rfl

/-- The frame DECODE finds does not fit the capacity (43_bitplanereader.md R145). -/
def State.truncated (s : State) : Prop :=
  s.operands.cap < 32 ∨ s.operands.cap < frameLength (spelled s.carrierBit 0 32)

/-- The ways DECODE ends, under any configuration (43_bitplanereader.md R141, R142, R145). -/
theorem decodeWith_cases (cfg : Config) (s : State) :
    (Config.holds cfg.pixMemSize s.operands.gridBytes = false ∧ decodeWith cfg s = .refused .exceedsMemory) ∨
    (Config.holds cfg.pixMemSize s.operands.gridBytes = true ∧ s.operands.invalidChannels = true ∧
      decodeWith cfg s = .next (raise .invalidChannelCount (startCommand s))) ∨
    (Config.holds cfg.pixMemSize s.operands.gridBytes = true ∧ s.operands.invalidChannels = false ∧ s.truncated ∧
      decodeWith cfg s = .next (raise .truncatedFrame (startCommand s))) ∨
    (Config.holds cfg.pixMemSize s.operands.gridBytes = true ∧ s.operands.invalidChannels = false ∧ ¬ s.truncated ∧
      ∃ u : State, u.len.toNat = spelled s.carrierBit 0 32 ∧
        u = { (startCommand s).withWorkingOf u with draws := s.draws, payOut := u.payOut } ∧
        (∀ a, u.readByte .payOut a =
          if a < u.len.toNat then BitVec.ofNat 8 (spelled s.carrierBit (32 + 8 * a) 8) else s.readByte .payOut a) ∧
        (Memory.wf s.payOut → Memory.wf u.payOut) ∧
        decodeWith cfg s =
          if Config.holds cfg.payMemSize u.len.toNat then .next (complete { u with rlen := u.len })
          else .refused .exceedsMemory) := by
  unfold decodeWith
  cases hfit : Config.holds cfg.pixMemSize s.operands.gridBytes
  · simp [hfit]
  cases hk : s.operands.invalidChannels
  swap
  · simp [hfit, hk]
  have hbits := decodePass_bits s
  have hframe := (decodePass_spec s.operands (startCommand s)).frame
  obtain ⟨hlen, hbyte⟩ := unframe_tabulated hbits
  have hcap : (decodePass s.operands (startCommand s)).bits.length = s.operands.cap := by simp [hbits]
  cases hu : unframeOp (decodePass s.operands (startCommand s)) with
  | error e =>
    obtain ⟨rfl, htr⟩ := (unframeOp_error_iff _ _).1 hu
    refine .inr (.inr (.inl ⟨rfl, rfl, ?_, by simp [hfit, hk, hu]⟩))
    rw [hcap] at htr
    by_cases h32 : s.operands.cap < 32
    · exact .inl h32
    · rw [hlen (not_lt.1 h32)] at htr
      exact htr
  | ok u =>
    obtain ⟨h32, hfl, hl, huframe, huread, huwf⟩ := unframeOp_ok hu
    rw [hcap] at h32 hfl
    rw [hlen h32] at hl
    refine .inr (.inr (.inr ⟨rfl, rfl, ?_, u, hl, ?_, fun a => ?_, ?_, ?_⟩))
    · rintro (h | h)
      · omega
      · rw [hl] at hfl; omega
    · rw [huframe, hframe]; rfl
    · rw [huread]
      by_cases ha : a < u.len.toNat
      · rw [if_pos ha, if_pos ha, hbyte a (by rw [frameLength] at hfl; omega)]
      · rw [if_neg ha, if_neg ha, hframe]; rfl
    · intro h
      refine huwf ?_
      rw [hframe]; exact h
    · simp only [hu, hfit, hk]
      cases Config.holds cfg.payMemSize u.len.toNat <;> simp

end Sys2Proof.Machine
end

