-- ==== Sys2Proof/Laws/BitPlaneWriter.lean ====
section
/-! SUPPORT. What the ENCODE pass and the command ENCODE do. -/

namespace Sys2Proof.Machine

/-- The byte the ENCODE pass writes at address `a`, given BITS and the cover byte (42_bitplanewriter.md R121). -/
def passByte (o : Operands) (bits : List Bool) (v : Byte) (a : Nat) : Byte :=
  if a % o.C < o.k ∧ a / o.C * o.k + a % o.C < o.frameBits then
    lsbSet v (bits.getD (a / o.C * o.k + a % o.C) false)
  else v

/-- One channel of the pass writes one byte of PIX_OUT and moves the cursor. -/
theorem encodeChannel_eq (o : Operands) {p n : Nat} (s : State) (hn : n < o.C) :
    encodeChannel o p s n =
      { s with cursor := cursorAt o.k p n }.writeByte .pixOut (pixelAddress o.C p n)
        (passByte o s.bits (s.readByte .pixIn (pixelAddress o.C p n)) (pixelAddress o.C p n)) := by
  obtain ⟨hdiv, hmod⟩ := pixelAddress_div_mod (p := p) hn
  rw [encodeChannel, passByte, hdiv, hmod, posOf]
  by_cases hk : n < o.k
  · simp only [hk, true_and, if_true]
  · simp only [hk, false_and, if_false]

/-- What has happened once the pass has written the addresses below `bound`. -/
structure PassDone (o : Operands) (s t : State) (bound : Nat) : Prop where
  frame : t = { s with cursor := t.cursor, pixOut := t.pixOut }
  read : ∀ a, t.readByte .pixOut a =
    if a < bound then passByte o s.bits (s.readByte .pixIn a) a else s.readByte .pixOut a
  wf : Memory.wf s.pixOut → Memory.wf t.pixOut

theorem passDone_channel {o : Operands} {s t : State} {p n : Nat} (hn : n < o.C)
    (h : PassDone o s t (pixelAddress o.C p n)) :
    PassDone o s (encodeChannel o p t n) (pixelAddress o.C p (n + 1)) := by
  obtain ⟨hframe, hread, hwf⟩ := h
  have hb : t.bits = s.bits := by rw [hframe]
  have hin : ∀ a, t.readByte .pixIn a = s.readByte .pixIn a := fun a => by rw [hframe]; rfl
  rw [encodeChannel_eq o t hn, hb, hin]
  refine ⟨by rw [hframe]; rfl, fun a => ?_, fun h => Memory.put_wf (hwf h) _ _⟩
  have hcur : ∀ c b, State.readByte { t with bits := b, cursor := c } .pixOut a = t.readByte .pixOut a := fun _ _ => rfl
  have hnext : pixelAddress o.C p (n + 1) = pixelAddress o.C p n + 1 := rfl
  rw [State.readByte_writeByte, hcur, hread, hnext]
  simp only [true_and]
  by_cases ha : a = pixelAddress o.C p n
  · rw [if_pos ha, if_pos (by omega), ha]
  · rw [if_neg ha]
    by_cases hlt : a < pixelAddress o.C p n
    · rw [if_pos hlt, if_pos (by omega)]
    · rw [if_neg hlt, if_neg (by omega)]

theorem passDone_channels {o : Operands} {s t : State} {p : Nat} (h : PassDone o s t (p * o.C)) (n : Nat)
    (hn : n ≤ o.C) : PassDone o s ((List.range n).foldl (encodeChannel o p) t) (pixelAddress o.C p n) := by
  induction n with
  | zero => exact h
  | succ n ih =>
    simp only [List.range_succ, List.foldl_append, List.foldl_cons, List.foldl_nil]
    exact passDone_channel (by omega) (ih (by omega))

theorem passDone_pixels (o : Operands) (s : State) (p : Nat) :
    PassDone o s ((List.range p).foldl (encodePixel o) s) (p * o.C) := by
  induction p with
  | zero => exact ⟨rfl, by simp, id⟩
  | succ p ih =>
    simp only [List.range_succ, List.foldl_append, List.foldl_cons, List.foldl_nil]
    obtain ⟨hframe, hread, hwf⟩ := passDone_channels ih o.C le_rfl
    refine ⟨?_, fun a => ?_, hwf⟩
    · rw [encodePixel, hframe]
    · rw [show (p + 1) * o.C = pixelAddress o.C p o.C by rw [pixelAddress]; ring]
      exact hread a

/-- What the ENCODE pass does: every address of the grid takes its byte in PIX_OUT, and nothing else changes but the
cursor. -/
theorem encodePass_spec (o : Operands) (s : State) : PassDone o s (encodePass o s) o.gridBytes :=
  passDone_pixels o s o.pixels

/-- The ways ENCODE ends, under any configuration (42_bitplanewriter.md R121, R122). -/
theorem encodeWith_cases (cfg : Config) (s : State) :
    (encodeFits cfg s.operands = false ∧ encodeWith cfg s = .refused .exceedsMemory) ∨
    (encodeFits cfg s.operands = true ∧ s.operands.invalidChannels = true ∧
      encodeWith cfg s = .next (raise .invalidChannelCount (startCommand s))) ∨
    (encodeFits cfg s.operands = true ∧ s.operands.invalidChannels = false ∧
      (cfg.capPolicy = .strict ∧ s.operands.exceedsCapacity = true) ∧
      encodeWith cfg s = .next (raise .capacityExceeded (startCommand s))) ∨
    (encodeFits cfg s.operands = true ∧ s.operands.invalidChannels = false ∧
      ¬ (cfg.capPolicy = .strict ∧ s.operands.exceedsCapacity = true) ∧
      encodeWith cfg s = .next (complete (encodePass s.operands (frameOp s.plen (startCommand s))))) := by
  unfold encodeWith
  cases hfit : encodeFits cfg s.operands
  · simp [hfit]
  · cases hk : s.operands.invalidChannels
    · by_cases hc : cfg.capPolicy = .strict ∧ s.operands.exceedsCapacity = true
      · simp [hfit, hk, hc]
      · have : (cfg.capPolicy == .strict && s.operands.exceedsCapacity) = false := by
          rw [Bool.eq_false_iff]
          simpa using hc
        simp [hfit, hk, hc, this]
    · simp [hfit, hk]

/-- On this hardware every footprint fits: the memories have no bound (93_implementation_defined.md U5). -/
@[simp] theorem encodeFits_hardware (o : Operands) : encodeFits Config.hardware o = true := rfl

/-- The state a successful ENCODE leaves: PIX_OUT, STATUS and the working state, nothing else; and the bytes of PIX_OUT
in closed form (42_bitplanewriter.md R125, R128). -/
theorem encodeDone_spec (s : State) :
    let t := complete (encodePass s.operands (frameOp s.plen (startCommand s)))
    t = { s with status := statusComplete, pixOut := t.pixOut }.withWorkingOf t ∧
    (∀ a, t.readByte .pixOut a =
      if a < s.operands.gridBytes then s.encodedByte s.operands.frameBits a else s.readByte .pixOut a) ∧
    (Memory.wf s.pixOut → Memory.wf t.pixOut) := by
  obtain ⟨hframe, hread, hwf⟩ := encodePass_spec s.operands (frameOp s.plen (startCommand s))
  generalize encodePass s.operands (frameOp s.plen (startCommand s)) = u at hframe hread hwf
  have hspec := frameOp_spec s.plen (startCommand s)
  have hbits := congrArg State.bits hspec
  have hmem : ∀ sp a, (frameOp s.plen (startCommand s)).readByte sp a = s.readByte sp a := fun sp a => by
    rw [hspec]; cases sp <;> rfl
  simp only at hbits
  refine ⟨?_, fun a => ?_, fun h => hwf (by rw [hspec]; exact h)⟩
  · rw [hframe, hspec]; rfl
  · rw [complete_readByte, hread, hmem, hmem]
    by_cases ha : a < s.operands.gridBytes
    · rw [if_pos ha, if_pos ha, passByte, State.encodedByte]
      by_cases hsel : a % s.operands.C < s.operands.k ∧
          a / s.operands.C * s.operands.k + a % s.operands.C < s.operands.frameBits
      · have hlt : a / s.operands.C * s.operands.k + a % s.operands.C < frameLength s.plen.toNat := hsel.2
        simp only [hsel, and_self, if_true]
        rw [hbits, List.getD_eq_getElem?_getD, List.getElem?_map, List.getElem?_range hlt]
        rfl
      · simp only [hsel, if_false]
    · rw [if_neg ha, if_neg ha]

end Sys2Proof.Machine
end

