-- ==== Sys2Proof/Laws/Operands.lean ====
section
/-! SUPPORT. The entry checks of the commands as propositions over the operands. -/

namespace Sys2Proof.Machine

/-- The channel count check fails exactly for `k = 0` or `k > C` (60_exceptions.md R162). -/
theorem Operands.invalidChannels_iff (o : Operands) : o.invalidChannels = true ↔ o.k = 0 ∨ o.C < o.k := by
  simp [Operands.invalidChannels]

/-- The channel count check passes exactly for `1 ≤ k ≤ C` (60_exceptions.md R162). -/
theorem Operands.validChannels_iff (o : Operands) : o.invalidChannels = false ↔ 1 ≤ o.k ∧ o.k ≤ o.C := by
  rw [← Bool.not_eq_true, Operands.invalidChannels_iff]
  omega

/-- The capacity check fails exactly for `F > cap` (42_bitplanewriter.md R124). -/
theorem Operands.exceedsCapacity_iff (o : Operands) : o.exceedsCapacity = true ↔ o.cap < o.frameBits := by
  simp [Operands.exceedsCapacity]

/-- The capacity check passes exactly for `F ≤ cap` (42_bitplanewriter.md R124). -/
theorem Operands.fitsCapacity_iff (o : Operands) : o.exceedsCapacity = false ↔ o.frameBits ≤ o.cap := by
  simp [Operands.exceedsCapacity]

end Sys2Proof.Machine
end

