-- ==== Sys2Proof/Laws/PerInstr.lean ====
section
/-! SUPPORT. Statements about every operation as syntax, one lemma per constructor. -/

namespace Sys2Proof.Laws.WordRoundTrip

/-- The OP bit of a command word is bit 0 (30_encoding.md R66). -/
theorem getLsbD_zero (ignored : BitVec 31) (op : Bool) :
    BitVec.getLsbD (ignored ++ BitVec.ofBool op) 0 = op := by
  rw [BitVec.getLsbD_append]
  cases op <;> rfl

/-- The decoder reads every word of an operation, whatever its ignored bits, as that operation. -/
def Statement (i : Instr) : Prop := ∀ ignored c, encode ignored i = some c → decodeWord c = i

theorem encode : Statement .encode := fun ignored c h => by
  obtain rfl : ignored ++ BitVec.ofBool false = c := by simpa [Sys2Proof.encode, Instr.opBit] using h
  rw [decodeWord, getLsbD_zero]; rfl

theorem decode : Statement .decode := fun ignored c h => by
  obtain rfl : ignored ++ BitVec.ofBool true = c := by simpa [Sys2Proof.encode, Instr.opBit] using h
  rw [decodeWord, getLsbD_zero]; rfl

theorem frame : Statement .frame := fun _ _ h => by simp [Sys2Proof.encode, Instr.opBit] at h

theorem unframe : Statement .unframe := fun _ _ h => by simp [Sys2Proof.encode, Instr.opBit] at h

theorem seq (i : Nat) : Statement (.seq i) := fun _ _ h => by simp [Sys2Proof.encode, Instr.opBit] at h

theorem lsbset (v : Byte) (b : Bool) : Statement (.lsbset v b) := fun _ _ h => by
  simp [Sys2Proof.encode, Instr.opBit] at h

theorem lsbget (v : Byte) : Statement (.lsbget v) := fun _ _ h => by simp [Sys2Proof.encode, Instr.opBit] at h

end Sys2Proof.Laws.WordRoundTrip
end

