-- ==== Sys2Proof/Laws/Step.lean ====
section
/-! SUPPORT. What a command, a host transaction and a step can do, said once. -/

namespace Sys2Proof.Machine

/-- How a command ends: by `complete` with one output memory (and RLEN) written, or by `raise` of one of the three
errors, which writes STATUS alone. -/
inductive CommandEnd (s t : State) : Prop where
  | raised (e : CodecError) (he : e ≠ .channelCountMismatch)
      (ht : t = { s with status := statusError e }.withWorkingOf t)
  | encoded (ht : t = { s with status := statusComplete, pixOut := t.pixOut }.withWorkingOf t)
      (hwf : Memory.wf s.pixOut → Memory.wf t.pixOut)
  | decoded (ht : t = { s with status := statusComplete, payOut := t.payOut, rlen := t.rlen }.withWorkingOf t)
      (hwf : Memory.wf s.payOut → Memory.wf t.payOut)

/-- Raising an error from a command just started changes STATUS and the working state alone. -/
theorem raise_startCommand (e : CodecError) (s : State) :
    raise e (startCommand s) = { s with status := statusError e }.withWorkingOf (raise e (startCommand s)) := rfl

/-- ENCODE on this hardware always answers a next state, in one of three ways. -/
theorem execEncode_cases (s : State) :
    (s.operands.invalidChannels = true ∧ execEncode s = .next (raise .invalidChannelCount (startCommand s))) ∨
    (s.operands.invalidChannels = false ∧ s.operands.exceedsCapacity = true ∧
      execEncode s = .next (raise .capacityExceeded (startCommand s))) ∨
    (s.operands.invalidChannels = false ∧ s.operands.exceedsCapacity = false ∧
      execEncode s = .next (complete (encodePass s.operands (frameOp s.plen (startCommand s))))) := by
  rcases encodeWith_cases Config.hardware s with ⟨h, -⟩ | ⟨-, hk, h⟩ | ⟨-, hk, hc, h⟩ | ⟨-, hk, hc, h⟩
  · simp at h
  · exact .inl ⟨hk, h⟩
  · exact .inr (.inl ⟨hk, hc.2, h⟩)
  · refine .inr (.inr ⟨hk, ?_, h⟩)
    cases hx : s.operands.exceedsCapacity
    · rfl
    · exact absurd ⟨rfl, hx⟩ hc

/-- DECODE on this hardware always answers a next state, in one of three ways. -/
theorem execDecode_cases (s : State) :
    (s.operands.invalidChannels = true ∧ execDecode s = .next (raise .invalidChannelCount (startCommand s))) ∨
    (s.operands.invalidChannels = false ∧ s.truncated ∧
      execDecode s = .next (raise .truncatedFrame (startCommand s))) ∨
    (s.operands.invalidChannels = false ∧ ¬ s.truncated ∧ ∃ t : State, execDecode s = .next t ∧
      t = { s with status := statusComplete, payOut := t.payOut, rlen := t.rlen }.withWorkingOf t ∧
      t.rlen.toNat = spelled s.carrierBit 0 32 ∧
      (∀ a, t.readByte .payOut a =
        if a < t.rlen.toNat then BitVec.ofNat 8 (spelled s.carrierBit (32 + 8 * a) 8) else s.readByte .payOut a) ∧
      (Memory.wf s.payOut → Memory.wf t.payOut)) := by
  rcases decodeWith_cases Config.hardware s with ⟨h, -⟩ | ⟨-, hk, h⟩ | ⟨-, hk, htr, h⟩ | ⟨-, hk, htr, u, hl, hu, hread, hwf, h⟩
  · exact absurd h (by simp [Config.hardware, Config.holds])
  · exact .inl ⟨hk, h⟩
  · exact .inr (.inl ⟨hk, htr, h⟩)
  · refine .inr (.inr ⟨hk, htr, complete { u with rlen := u.len }, h, ?_, hl, fun a => ?_, hwf⟩)
    · rw [hu]; rfl
    · rw [complete_readByte]; exact hread a

/-- A command answers a next state and ends in one of the three ways. -/
theorem exec_decodeWord (c : Word) (s : State) : ∃ t, exec (decodeWord c) s = .next t ∧ CommandEnd s t := by
  unfold decodeWord
  cases c.getLsbD 0
  · rcases execEncode_cases s with ⟨-, h⟩ | ⟨-, -, h⟩ | ⟨-, -, h⟩
    · exact ⟨_, h, .raised _ (by decide) (raise_startCommand _ s)⟩
    · exact ⟨_, h, .raised _ (by decide) (raise_startCommand _ s)⟩
    · obtain ⟨hf, -, hwf⟩ := encodeDone_spec s
      exact ⟨_, h, .encoded hf hwf⟩
  · rcases execDecode_cases s with ⟨-, h⟩ | ⟨-, -, h⟩ | ⟨-, -, t, h, ht, -, -, hwf⟩
    · exact ⟨_, h, .raised _ (by decide) (raise_startCommand _ s)⟩
    · exact ⟨_, h, .raised _ (by decide) (raise_startCommand _ s)⟩
    · exact ⟨t, h, .decoded ht hwf⟩

/-- After a command STATUS is one of the words it may hold between commands. -/
theorem CommandEnd.status_idle {s t : State} (h : CommandEnd s t) : t.status ∈ idleStatusWords := by
  rcases h with ⟨e, he, ht⟩ | ⟨ht, -⟩ | ⟨ht, -⟩ <;> rw [ht]
  · exact statusError_idle he
  · exact statusComplete_idle
  · exact statusComplete_idle

/-- A command keeps the memories in canonical form. -/
theorem CommandEnd.memoriesWf {s t : State} (h : CommandEnd s t) (hs : s.memoriesWf) : t.memoriesWf := by
  obtain ⟨h1, h2, h3, h4⟩ := hs
  rcases h with ⟨e, he, ht⟩ | ⟨ht, hwf⟩ | ⟨ht, hwf⟩ <;> rw [ht]
  · exact ⟨h1, h2, h3, h4⟩
  · exact ⟨h1, hwf h2, h3, h4⟩
  · exact ⟨h1, h2, h3, hwf h4⟩

/-- What one host transaction does when it is answered by a next state. -/
inductive HostEffect (act : HostAction) (s t : State) : Prop where
  | reset (ha : act = .reset) (ht : t = applyReset s)
  | command (c : Word) (ha : act = .writeReg 0 4 c) (hb : s.busy = false) (he : exec (decodeWord c) s = .next t)
  | wroteRegister (r : Reg) (v : Word) (ha : act = .writeReg (4 * r.index) 4 v) (hr : r ≠ .cmd) (hb : s.busy = false)
      (ht : t = s.writeRegister r v)
  | ignored (ht : t = s)
  | read (v : HostValue) (ht : t = { s with readData := some v })
  | wroteByte (sp : Space) (a : Nat) (b : Byte) (ha : act = .writeMem sp a b) (hb : s.busy = false)
      (ht : t = s.writeByte sp a b)
  | copied (a : Nat) (ha : act = .copyPixel a) (hb : s.busy = false)
      (ht : t = { s.writeByte .pixIn a (s.readByte .pixOut a) with readData := some (.byte (s.readByte .pixOut a)) })

theorem whenIdle_next {s t u : State} (h : whenIdle s t = .next u) : s.busy = false ∧ u = t := by
  unfold whenIdle at h
  cases hb : s.busy <;> simp_all

theorem registerIndex_some {offset bytes i : Nat} (h : registerIndex offset bytes = some i) :
    bytes = 4 ∧ offset = 4 * i := by
  unfold registerIndex at h
  split at h
  · next hc => exact ⟨hc.1, by have := Option.some.inj h; omega⟩
  · simp at h

theorem Reg.ofIndex_some {i : Nat} {r : Reg} (h : Reg.ofIndex i = some r) : i = r.index := by
  unfold Reg.ofIndex at h
  split at h <;> first | (obtain rfl := Option.some.inj h; rfl) | simp at h

/-- The inversion lemma of a host transaction. -/
theorem performHost_effect {act : HostAction} {s t : State} (h : performHost act s = .next t) : HostEffect act s t := by
  cases act with
  | reset => exact .reset rfl (by simpa [performHost] using h.symm)
  | writeMem sp a b => obtain ⟨hb, ht⟩ := whenIdle_next h; exact .wroteByte sp a b rfl hb ht
  | readMem sp a => obtain ⟨hb, ht⟩ := whenIdle_next h; exact .read _ ht
  | copyPixel a => obtain ⟨hb, ht⟩ := whenIdle_next h; exact .copied a rfl hb ht
  | readReg offset bytes =>
    simp only [performHost, hostReadRegister] at h
    split at h
    · simp at h
    · split at h
      · exact .read _ (by simpa using h.symm)
      · exact .read _ (whenIdle_next h).2
      · exact .read _ (whenIdle_next h).2
  | writeReg offset bytes v =>
    simp only [performHost, hostWriteRegister] at h
    split at h
    · simp at h
    · next i hi =>
      obtain ⟨rfl, rfl⟩ := registerIndex_some hi
      split at h
      · next hr =>
        obtain rfl := Reg.ofIndex_some hr
        unfold writeCommand at h
        cases hb : s.busy
        · exact .command v rfl hb (by simpa [hb] using h)
        · exact .ignored (by simpa [hb] using h.symm)
      · next r hne hr =>
        obtain rfl := Reg.ofIndex_some hr
        obtain ⟨hb, ht⟩ := whenIdle_next h
        exact .wroteRegister r v rfl hne hb ht
      · exact .ignored (whenIdle_next h).2

/-- The inversion lemma of a step: nothing pending and nothing done, or the effect of the oldest transaction. -/
theorem step_effect {s t : State} (h : step s = .next t) :
    (s.hostQueue = [] ∧ t = s) ∨
    ∃ act rest, s.hostQueue = act :: rest ∧ HostEffect act { s with hostQueue := rest } t := by
  unfold step at h
  split at h
  · next hq => exact .inl ⟨hq, by simpa using h.symm⟩
  · next act rest hq => exact .inr ⟨act, rest, hq, performHost_effect h⟩

/-- A register write keeps STATUS and the memories. -/
@[simp] theorem State.writeRegister_status (s : State) (r : Reg) (v : Word) : (s.writeRegister r v).status = s.status := by
  cases r <;> rfl

@[simp] theorem State.writeRegister_mem (s : State) (r : Reg) (v : Word) (sp : Space) :
    (s.writeRegister r v).mem sp = s.mem sp := by
  cases r <;> cases sp <;> rfl

theorem State.writeRegister_memoriesWf {s : State} (h : s.memoriesWf) (r : Reg) (v : Word) :
    (s.writeRegister r v).memoriesWf := by
  cases r <;> exact h

/-- A host transaction answered by a next state keeps the memories in canonical form. -/
theorem HostEffect.memoriesWf {act : HostAction} {s t : State} (h : HostEffect act s t) (hs : s.memoriesWf) :
    t.memoriesWf := by
  rcases h with ⟨-, rfl⟩ | ⟨c, -, -, he⟩ | ⟨r, v, -, -, -, rfl⟩ | rfl | ⟨v, rfl⟩ | ⟨sp, a, b, -, -, rfl⟩ | ⟨a, -, -, rfl⟩
  · simp [State.memoriesWf, Memory.wf]
  · obtain ⟨t', ht', hend⟩ := exec_decodeWord c s
    obtain rfl : t' = t := by rw [ht'] at he; simpa using he
    exact hend.memoriesWf hs
  · exact State.writeRegister_memoriesWf hs r v
  · exact hs
  · exact hs
  · exact State.writeByte_memoriesWf hs sp a b
  · exact State.writeByte_memoriesWf hs .pixIn a _

/-- A host transaction answered by a next state leaves STATUS at a word it may hold between commands. -/
theorem HostEffect.status_idle {act : HostAction} {s t : State} (h : HostEffect act s t)
    (hs : s.status ∈ idleStatusWords) : t.status ∈ idleStatusWords := by
  rcases h with ⟨-, rfl⟩ | ⟨c, -, -, he⟩ | ⟨r, v, -, -, -, rfl⟩ | rfl | ⟨v, rfl⟩ | ⟨sp, a, b, -, -, rfl⟩ | ⟨a, -, -, rfl⟩
  · simp [idleStatusWords]
  · obtain ⟨t', ht', hend⟩ := exec_decodeWord c s
    obtain rfl : t' = t := by rw [ht'] at he; simpa using he
    exact hend.status_idle
  · simpa using hs
  · exact hs
  · exact hs
  · simpa using hs
  · simpa using hs

/-- A host transaction answered by a next state leaves the transactions still pending alone. -/
theorem HostEffect.hostQueue {act : HostAction} {s t : State} (h : HostEffect act s t) : t.hostQueue = s.hostQueue := by
  rcases h with ⟨-, rfl⟩ | ⟨c, -, -, he⟩ | ⟨r, v, -, -, -, rfl⟩ | rfl | ⟨v, rfl⟩ | ⟨sp, a, b, -, -, rfl⟩ | ⟨a, -, -, rfl⟩
  · rfl
  · obtain ⟨t', ht', hend⟩ := exec_decodeWord c s
    obtain rfl : t' = t := by rw [ht'] at he; simpa using he
    rcases hend with ⟨e, -, ht⟩ | ⟨ht, -⟩ | ⟨ht, -⟩ <;> rw [ht] <;> rfl
  · cases r <;> rfl
  · rfl
  · rfl
  · simp
  · simp

/-- A run of no steps. -/
theorem run_zero (s : State) : Sys2Proof.core.run 0 s = .next s := rfl

/-- A run whose first step answers a next state goes on from there. -/
theorem run_succ {n : Nat} {s t : State} (h : step s = .next t) :
    Sys2Proof.core.run (n + 1) s = Sys2Proof.core.run n t := by
  have h : Sys2Proof.core.step s = .next t := h
  simp only [Host.Core.run, h]

/-- Runs compose. -/
theorem run_add {m n : Nat} {s t : State} (h : Sys2Proof.core.run m s = .next t) :
    Sys2Proof.core.run (m + n) s = Sys2Proof.core.run n t := by
  induction m generalizing s with
  | zero =>
    obtain rfl : s = t := Host.Outcome.next.inj h
    rw [Nat.zero_add]
  | succ m ih =>
    cases hs : step s with
    | next u =>
      rw [run_succ hs] at h
      rw [show m + 1 + n = m + n + 1 by omega, run_succ hs]
      exact ih h
    | fault r =>
      have hs : Sys2Proof.core.step s = .fault r := hs
      simp [Host.Core.run, hs] at h
    | refused r =>
      have hs : Sys2Proof.core.step s = .refused r := hs
      simp [Host.Core.run, hs] at h

end Sys2Proof.Machine
end

