-- ==== Sys2Proof/Tests/Slice0.lean ====
section
/-! SUPPORT. The model's own tests, expected values from spec/95_test_vectors.md and the tables of spec/, and for every
statement of Obligations.lean that has hypotheses a concrete case that meets them all. -/

namespace Sys2Proof.Tests

open Sys2Proof Sys2Proof.Machine

/-! Helpers. -/

/-- A memory that holds a list of bytes from address 0. -/
def listed (bytes : List Byte) : Memory := (List.range bytes.length).zip bytes

/-- The reset state with the operand registers programmed and the two input memories loaded. -/
def loaded (W H C k L : Nat) (cover payload : List Byte) : State :=
  { State.reset with
    width := BitVec.ofNat 32 W
    height := BitVec.ofNat 32 H
    pcc := BitVec.ofNat 8 C
    channels := BitVec.ofNat 8 k
    plen := BitVec.ofNat 32 L
    pixIn := listed cover
    payIn := listed payload }

/-- `n` equal bytes. -/
def filled (n : Nat) (b : Byte) : List Byte := List.replicate n b

/-- The outcome is a next state of which `p` holds. -/
def nextAnd (o : Host.Outcome State Fault Refusal) (p : State → Bool) : Bool :=
  match o with
  | .next t => p t
  | .fault _ => false
  | .refused _ => false

theorem next_of_nextAnd {o : Host.Outcome State Fault Refusal} {p : State → Bool} (h : nextAnd o p = true) :
    ∃ t, o = .next t ∧ p t = true := by
  cases o with
  | next t => exact ⟨t, rfl, h⟩
  | fault _ => simp [nextAnd] at h
  | refused _ => simp [nextAnd] at h

/-- The first `n` bytes of a memory. -/
def bytesOf (s : State) (sp : Space) (n : Nat) : List Byte := (List.range n).map (s.readByte sp)

/-- A string of zeros and ones as bits, position 0 first. -/
def ofDigits (digits : String) : List Bool := (digits.toList.filter (· != ' ')).map (· == '1')

/-! WellFormed. -/

/-- 41_sequencer.md R101, R104: no grid has a position at or beyond the largest capacity. -/
theorem test_seq_beyond_every_grid_is_ill_formed : (Instr.seq Config.maxCapacity).wellFormed = false := by decide

theorem test_seq_last_position_is_well_formed :
    (Instr.seq ((2 ^ 32 - 1) * (2 ^ 32 - 1) * 255 - 1)).wellFormed = true := by decide

/-! Decode: words written out from 30_encoding.md R66. -/

theorem test_decode_word_of_encode : decodeWord 0b00000000000000000000000000000000#32 = .encode := by decide

theorem test_decode_word_of_decode : decodeWord 0b00000000000000000000000000000001#32 = .decode := by decide

/-- 95_test_vectors.md VG6, VG7. -/
theorem test_decode_ignores_upper_bits :
    decodeWord 0xFFFFFFFE#32 = .encode ∧ decodeWord 0x80000001#32 = .decode := by decide

/-- 30_encoding.md R74: the five internal operations have no bit pattern. -/
theorem test_internal_operations_have_no_word (ignored : BitVec 31) (i : Nat) (v : Byte) (b : Bool) :
    encode ignored .frame = none ∧ encode ignored .unframe = none ∧ encode ignored (.seq i) = none ∧
    encode ignored (.lsbset v b) = none ∧ encode ignored (.lsbget v) = none := ⟨rfl, rfl, rfl, rfl, rfl⟩

theorem test_encode_words : encode 0#31 .encode = some 0x00000000#32 ∧ encode 0#31 .decode = some 0x00000001#32 ∧
    encode 0x7FFFFFFF#31 .encode = some 0xFFFFFFFE#32 ∧ encode 0x40000000#31 .decode = some 0x80000001#32 := by decide

/-- 30_encoding.md R71: a command word is 32 bits. -/
theorem test_decode_rejects_wider_numbers : decode 0x100000001 = .error .widerThanCommandWord := by rfl

theorem test_decode_table_words : decodeTableWord 32 0 = some .encode ∧ decodeTableWord 32 1 = some .decode := by decide

/-! The internal operations. -/

/-- 95_test_vectors.md VF5. -/
theorem test_frame_of_two_bytes : nextAnd (exec .frame (loaded 0 0 0 0 2 [] [0xA5, 0x3C]))
    (fun t => t.bits == ofDigits "00000000 00000000 00000000 00000010 10100101 00111100") = true := by decide +kernel

/-- 95_test_vectors.md VF8: the top byte of the length first. -/
theorem test_frame_length_is_big_endian :
    bitsBE 32 0x01020304 = ofDigits "00000001 00000010 00000011 00000100" := by decide +kernel

/-- 95_test_vectors.md VU4. -/
theorem test_unframe_of_two_bytes : nextAnd
    (exec .unframe { State.reset with bits := ofDigits "00000000 00000000 00000000 00000010 10100101 00111100" })
    (fun t => t.opResult == some (.length 2) && bytesOf t .payOut 2 == [0xA5, 0x3C]) = true := by decide +kernel

/-- 95_test_vectors.md VU9: the sum `32 + 8*length` does not wrap. -/
theorem test_unframe_length_does_not_wrap :
    nextAnd (exec .unframe { State.reset with bits := List.replicate 64 true }) (fun t => t.status == 0x36) = true := by
  decide +kernel

/-- 95_test_vectors.md VQ5. -/
theorem test_seq_last_of_grid :
    nextAnd (exec (.seq 17) (loaded 3 2 4 3 0 [] [])) (fun t => t.opResult == some (.place 5 2 22)) = true := by
  decide +kernel

/-- 95_test_vectors.md VQ7. -/
theorem test_seq_one_bit_per_pixel :
    nextAnd (exec (.seq 5) (loaded 3 2 4 1 0 [] [])) (fun t => t.opResult == some (.place 5 0 20)) = true := by
  decide +kernel

/-- 95_test_vectors.md section 2.4: rows of the table. -/
theorem test_lsbset_rows (s : State) :
    exec (.lsbset 0x01 false) s = .next { s with opResult := some (.byte 0x00) } ∧
    exec (.lsbset 0x7F true) s = .next { s with opResult := some (.byte 0x7F) } ∧
    exec (.lsbset 0x80 true) s = .next { s with opResult := some (.byte 0x81) } ∧
    exec (.lsbset 0xFE true) s = .next { s with opResult := some (.byte 0xFF) } ∧
    exec (.lsbset 0xFF false) s = .next { s with opResult := some (.byte 0xFE) } := ⟨rfl, rfl, rfl, rfl, rfl⟩

/-- 95_test_vectors.md section 2.4: rows of the table. -/
theorem test_lsbget_rows (s : State) :
    exec (.lsbget 0x7F) s = .next { s with opResult := some (.bit true) } ∧
    exec (.lsbget 0x80) s = .next { s with opResult := some (.bit false) } ∧
    exec (.lsbget 0xFE) s = .next { s with opResult := some (.bit false) } := ⟨rfl, rfl, rfl⟩

/-! The commands. -/

/-- The cover of 95_test_vectors.md P1: `(7*a + 3) mod 256`. -/
def p1 : State := loaded 5 2 4 4 1 ((List.range 40).map fun a => BitVec.ofNat 8 (7 * a + 3)) [0xA5]

/-- The output grid of 95_test_vectors.md P1. -/
def p1Out : List Byte :=
  [0x02, 0x0A, 0x10, 0x18, 0x1E, 0x26, 0x2C, 0x34, 0x3A, 0x42, 0x48, 0x50, 0x56, 0x5E, 0x64, 0x6C, 0x72, 0x7A, 0x80,
    0x88] ++
  [0x8E, 0x96, 0x9C, 0xA4, 0xAA, 0xB2, 0xB8, 0xC0, 0xC6, 0xCE, 0xD4, 0xDD, 0xE3, 0xEA, 0xF1, 0xF8, 0xFE, 0x07, 0x0C,
    0x15]

/-- 95_test_vectors.md P1. -/
theorem test_encode_exact_fit :
    nextAnd (exec .encode p1) (fun t => t.status == 0x02 && t.rlen == 0 && bytesOf t .pixOut 40 == p1Out) = true := by
  decide +kernel

/-- 95_test_vectors.md VE2: the frame ends inside a pixel. -/
theorem test_encode_frame_ends_inside_a_pixel :
    nextAnd (exec .encode (loaded 14 1 3 3 1 (filled 42 0xFF) [0x80])) (fun t => t.status == 0x02 &&
      bytesOf t .pixOut 42 == filled 31 0xFE ++ [0xFF, 0xFF] ++ filled 7 0xFE ++ [0xFF, 0xFF]) = true := by
  decide +kernel

/-- 95_test_vectors.md VE7, under PERMISSIVE. -/
theorem test_permissive_encode_cuts_the_frame :
    nextAnd (encodeWith ⟨.permissive, none, none⟩ (loaded 12 1 3 3 1 (filled 36 0x80) [0xF0])) (fun t =>
      t.status == 0x02 && bytesOf t .pixOut 36 == filled 31 0x80 ++ filled 5 0x81) = true := by decide +kernel

/-- 95_test_vectors.md P2, over P1's output. -/
theorem test_decode_of_p1 : nextAnd (exec .decode (loaded 5 2 4 4 1 p1Out [])) (fun t =>
    t.status == 0x02 && t.rlen == 1 && t.readByte .payOut 0 == 0xA5) = true := by decide +kernel

/-- The grid of 95_test_vectors.md P6 and its sentinel. -/
def p6 : State :=
  { loaded 40 1 1 1 0 (filled 30 0x10 ++ [0x11] ++ filled 5 0x10 ++ [0x11, 0x10, 0x10, 0x11]) [] with
    payOut := listed [0xEE, 0xEE] }

/-- 95_test_vectors.md P6: no partial byte is written. -/
theorem test_decode_declared_length_too_large : nextAnd (exec .decode p6) (fun t =>
    t.status == 0x36 && t.rlen == 0 && bytesOf t .payOut 2 == [0xEE, 0xEE]) = true := by decide +kernel

/-! The host port. -/

/-- 30_encoding.md R73, 10_state.md R10: lines of the notation as transactions. -/
theorem test_host_lines : (HostLine.wr .pcc 4).transactions = [.writeReg 0x10 4 4] ∧
    (HostLine.rd .rlen).transactions = [.readReg 0x1C 4] ∧
    (HostLine.mw .payIn 0 [0x48, 0x69]).transactions = [.writeMem .payIn 0 0x48, .writeMem .payIn 1 0x69] ∧
    HostLine.decode.transactions = [.writeReg 0x00 4 0x00000001] := by decide

/-- 95_test_vectors.md VG2: bits 31:8 of PCC are ignored. -/
theorem test_pcc_write_keeps_low_byte :
    nextAnd (step { State.reset with hostQueue := [.writeReg 0x10 4 0x12345604] }) (fun t => t.pcc == 0x04) = true := by
  decide +kernel

/-- 95_test_vectors.md VG7, VX12: the word 0x80000001 starts DECODE, which fails from reset with `k = 0`. -/
theorem test_fetch_word_runs_decode :
    nextAnd (step (State.reset.withFetchWord 32 0x80000001)) (fun t => t.status == 0x46 && t.hostQueue == []) = true := by
  decide +kernel

/-! Witnesses: for every statement with hypotheses, a concrete case that meets them together. -/

/-- A state in which a command is running. -/
def running : State := { State.reset with status := 0x00000001#32 }

/-- VE3: an empty payload in 33 bytes. -/
def ve3 : State := loaded 11 1 3 3 0 (filled 33 0xFF) []

/-- VE3's output grid as PIX_IN. -/
def ve3Encoded : State := loaded 11 1 3 3 0 (filled 32 0xFE ++ [0xFF]) []

/-- HostReadOfEachRegister, HostWriteOfEachRegister, HostMemoryAccessIsPlainStorage, CopyLineCopiesTheGrid,
StepRunsTheDecodedCommand: BUSY = 0; the first index without a register is 8. -/
theorem witness_idle_host_access : p1.busy = false ∧ p6.busy = false ∧ (8 : Nat) ≥ 8 := by decide +kernel

/-- BusyRuleOfTheHostPort: BUSY = 1, and a transaction of every kind that its last clause refuses. -/
theorem witness_busy_host_access : running.busy = true ∧
    ∀ act ∈ [HostAction.writeReg 0x08 4 1, .writeReg 0x04 4 1, .readReg 0x00 4, .readReg 0x1C 4, .readReg 0x20 4,
        .writeMem .pixIn 0 1, .readMem .payOut 0, .copyPixel 0],
      act.wordAccess = true ∧ act ≠ .reset ∧ act ≠ .readReg 0x04 4 ∧ ∀ c, act ≠ .writeReg 0x00 4 c := by
  refine ⟨by decide, fun act h => ?_⟩
  fin_cases h <;> simp [HostAction.wordAccess]

/-- NarrowRegisterAccessIsRefused: narrow accesses and an unaligned one. -/
theorem witness_narrow_host_access : ∀ act ∈ [HostAction.writeReg 0x00 2 1, .readReg 0x14 1, .readReg 0x06 4],
    act.wordAccess = false := by decide

/-- IdleBlockKeepsItsState. -/
theorem witness_nothing_pending : p1.hostQueue = [] := by decide +kernel

/-- FetchWordRunsNext: the largest word. -/
theorem witness_fetch_word : 0xFFFFFFFF < 2 ^ 32 := by decide

/-- DecodeAndEncodeAgree, and CommandWordSelectsOneRow: two words with the same bit 0, one of each row. -/
theorem witness_command_words : encode 0x40000000#31 .decode = some 0x80000001#32 ∧
    0xFFFFFFFE#32 &&& 0x00000001#32 = 0x00000000#32 ∧ 0x80000001#32 &&& 0x00000001#32 = 0x00000001#32 ∧
    (0xFFFFFFFE#32).getLsbD 0 = (0x00000000#32).getLsbD 0 := by decide

/-- UnframeReadsLengthAndPayload, UnframeIgnoresTheRemainder: exactly as many bits as declared. -/
theorem witness_unframe_exact :
    let bits := ofDigits "00000000 00000000 00000000 00000001 11111111"
    32 ≤ bits.length ∧ 32 + 8 * spelled (fun i => bits.getD i false) 0 32 ≤ bits.length := by decide +kernel

/-- UnframeOfTooFewBitsIsTruncated: 31 bits; one bit short of the declared length (VU11). -/
theorem witness_unframe_too_few :
    (List.replicate 31 false).length < 32 ∧
    let bits := ofDigits "00000000 00000000 00000000 00000001 0000000"
    ¬ bits.length < 32 ∧ bits.length < 32 + 8 * spelled (fun i => bits.getD i false) 0 32 := by decide +kernel

/-- FrameThenUnframeIsIdentity: two states that differ beyond the payload have one frame. -/
theorem witness_equal_frames : ∃ t t', exec .frame (loaded 0 0 0 0 1 [] [0xA5]) = .next t ∧
    exec .frame (loaded 1 0 0 0 1 [] [0xA5, 0x3C]) = .next t' ∧ t.bits = t'.bits := by
  obtain ⟨t, h, hp⟩ := next_of_nextAnd (o := exec .frame (loaded 0 0 0 0 1 [] [0xA5]))
    (p := fun t => nextAnd (exec .frame (loaded 1 0 0 0 1 [] [0xA5, 0x3C])) fun t' => t.bits == t'.bits)
    (by decide +kernel)
  obtain ⟨t', h', hp'⟩ := next_of_nextAnd hp
  exact ⟨t, t', h, h', by simpa using hp'⟩

/-- SeqAnswersThePlace, SeqAndPosAreInverse: the last position of a grid with `k < C`, with `k = C`, with `k = 1`, and a
selected and an unselected channel. -/
theorem witness_seq_positions :
    (∀ r ∈ [(3, 17), (4, 23), (1, 5)], let s := loaded 3 2 4 r.1 0 [] []
      1 ≤ s.channels.toNat ∧ s.channels.toNat ≤ s.pcc.toNat ∧
      r.2 < s.width.toNat * s.height.toNat * s.channels.toNat ∧
      s.operands.C = 4 ∧ s.operands.k = r.1 ∧ s.operands.pixels = 6 ∧ r.2 < 6 * r.1) ∧
    5 < 6 ∧ 2 < 4 ∧ 2 < 3 ∧ 3 < 4 ∧ 3 ≤ 3 := by decide +kernel

/-- SeqOfNoPositionRunsWithAFreeResult: no selected channel, more than there are, the position after the last, an empty grid. -/
theorem witness_seq_no_position :
    (loaded 3 2 4 0 0 [] []).channels.toNat = 0 ∧
    (loaded 3 2 4 5 0 [] []).pcc.toNat < (loaded 3 2 4 5 0 [] []).channels.toNat ∧
    (∀ r ∈ [(3, 18), (0, 0)], let s := loaded r.1 2 4 3 0 [] []
      s.width.toNat * s.height.toNat * s.channels.toNat ≤ r.2) := by decide +kernel

/-- LsbSetReplacesTheLowestBit: `b = v[0]` at both values. -/
theorem witness_lsb_kept : true = (0xFF#8).getLsbD 0 ∧ false = (0x00#8).getLsbD 0 := by decide

/-- InvalidChannelCountEndsBothCommands: `k = 0`, `k = C + 1`, `C = 0`, and the largest valid count. -/
theorem witness_channel_counts :
    (loaded 4 4 3 0 0 [] []).channels.toNat = 0 ∧
    (loaded 4 4 3 4 0 [] []).pcc.toNat < (loaded 4 4 3 4 0 [] []).channels.toNat ∧
    (loaded 4 4 0 1 0 [] []).pcc.toNat = 0 ∧
    ¬ ((loaded 4 4 255 255 0 [] []).channels.toNat = 0 ∨
      (loaded 4 4 255 255 0 [] []).pcc.toNat < (loaded 4 4 255 255 0 [] []).channels.toNat) := by decide +kernel

/-- CapacityExceededEndsStrictEncode: one bit short (VE4); and the other clauses, a PERMISSIVE ENCODE and a DECODE that
answer a next state, and a STRICT ENCODE that ends with 0x16. -/
theorem witness_capacity_exceeded :
    (let s := loaded 13 1 3 3 1 (filled 39 0xFF) [0x80];
      1 ≤ s.channels.toNat ∧ s.channels.toNat ≤ s.pcc.toNat ∧
      s.width.toNat * s.height.toNat * s.channels.toNat < 32 + 8 * s.plen.toNat) ∧
    (∃ t, encodeWith ⟨.permissive, none, none⟩ (loaded 12 1 3 3 1 (filled 36 0x80) [0xF0]) = .next t) ∧
    (∃ t, decodeWith Config.hardware p6 = .next t) ∧
    ∃ t, encodeWith Config.hardware (loaded 13 1 3 3 1 (filled 39 0xFF) [0x80]) = .next t ∧ t.status = 0x00000016#32 :=
  ⟨by decide +kernel, (next_of_nextAnd (p := fun _ => true) (by decide +kernel)).imp fun _ h => h.1,
    (next_of_nextAnd (p := fun _ => true) (by decide +kernel)).imp fun _ h => h.1,
    (next_of_nextAnd (p := fun t => decide (t.status = 0x00000016#32)) (by decide +kernel)).imp
      fun _ h => ⟨h.1, of_decide_eq_true h.2⟩⟩

/-- TruncatedFrameEndsDecode, DecodeCompletesWithThePayload (first clause): a capacity of 31 (VD6), and a declared
length too large (P6). -/
theorem witness_truncated :
    (∀ s ∈ [loaded 31 1 1 1 0 (filled 31 0) [], p6], 1 ≤ s.channels.toNat ∧ s.channels.toNat ≤ s.pcc.toNat) ∧
    (loaded 31 1 1 1 0 (filled 31 0) []).operands.cap < 32 ∧
    ¬ p6.operands.cap < 32 ∧ p6.operands.cap < 32 + 8 * spelled p6.carrierBit 0 32 := by decide +kernel

/-- DecodeCompletesWithThePayload (second clause): P1's output grid, which the frame fills exactly. -/
theorem witness_decodes :
    let s := loaded 5 2 4 4 1 p1Out []
    1 ≤ s.channels.toNat ∧ s.channels.toNat ≤ s.pcc.toNat ∧ 32 ≤ s.operands.cap ∧
    32 + 8 * spelled (fun i => (s.readByte .pixIn (i / s.channels.toNat * s.pcc.toNat + i % s.channels.toNat)).toNat % 2
      == 1) 0 32 = s.operands.cap := by decide +kernel

/-- EncodeCompletesWithTheFrame, EncodeCopiesTheRemainder, EncodeProperties, DecodeAfterEncodeReturnsThePayload: a frame
that fills the capacity exactly, and an empty payload with one channel after the frame. -/
theorem witness_frame_fits :
    (∀ s ∈ [p1, ve3], 1 ≤ s.operands.k ∧ s.operands.k ≤ s.operands.C ∧ s.operands.frameBits ≤ s.operands.cap) ∧
    p1.operands.frameBits = p1.operands.cap ∧ ve3.operands.L = 0 ∧
    ve3.operands.frameBits ≤ 32 ∧ 32 < ve3.operands.cap := by decide +kernel

/-- PermissiveEncodeCutsTheFrame: `F = cap`, `F > cap` (VE7), an empty grid (VE5). -/
theorem witness_permissive :
    (∀ s ∈ [p1, loaded 12 1 3 3 1 (filled 36 0x80) [0xF0], loaded 0 5 3 3 0 [] []],
      1 ≤ s.operands.k ∧ s.operands.k ≤ s.operands.C) ∧
    p1.operands.frameBits ≤ p1.operands.cap ∧
    (let s := loaded 12 1 3 3 1 (filled 36 0x80) [0xF0]; s.operands.cap < s.operands.frameBits) ∧
    (let s := loaded 0 5 3 3 0 [] []; s.operands.W * s.operands.H = 0) := by decide +kernel

/-- EncodeClosedFormUnderEitherPolicy: a STRICT success; a STRICT configuration with just enough memory, and a PERMISSIVE
one whose frame is cut. -/
theorem witness_closed_form :
    (∃ t, encodeWith ⟨.strict, some 33, some 0⟩ ve3 = .next t ∧ t.status = 0x00000002#32) ∧
    (encodeFits ⟨.strict, some 33, some 0⟩ ve3.operands = true ∧ ve3.operands.frameBits ≤ ve3.operands.cap) ∧
    let s := loaded 12 1 3 3 1 (filled 36 0x80) [0xF0]
    encodeFits ⟨.permissive, some 36, some 1⟩ s.operands = true ∧ 1 ≤ s.operands.k ∧ s.operands.k ≤ s.operands.C := by
  obtain ⟨t, h, hp⟩ := next_of_nextAnd (o := encodeWith ⟨.strict, some 33, some 0⟩ ve3)
    (p := fun t => t.status == 0x00000002#32) (by decide +kernel)
  exact ⟨⟨t, h, by simpa using hp⟩, by decide +kernel, by decide +kernel⟩

/-- CutFrameDoesNotDecode: VE7's grid, as a host copies it. -/
theorem witness_cut_frame :
    let s := loaded 12 1 3 3 1 (filled 36 0x80) [0xF0]
    let u := loaded 3 4 3 3 9 (filled 31 0x80 ++ filled 5 0x81) []
    (1 ≤ s.operands.k ∧ s.operands.k ≤ s.operands.C ∧ s.operands.cap < s.operands.frameBits) ∧
    ∃ t, encodeWith ⟨.permissive, none, none⟩ s = .next t ∧
      u.operands.pixels = s.operands.pixels ∧ u.operands.C = s.operands.C ∧ u.operands.k = s.operands.k ∧
      ∀ i < s.operands.cap,
        u.carrierBit i = lsbGet (t.readByte .pixOut (seqPlace s.operands.C s.operands.k i).a) := by
  intro s u
  obtain ⟨t, h, hp⟩ := next_of_nextAnd (o := encodeWith ⟨.permissive, none, none⟩ s)
    (p := fun t => decide (∀ i < s.operands.cap,
      u.carrierBit i = lsbGet (t.readByte .pixOut (seqPlace s.operands.C s.operands.k i).a))) (by decide +kernel)
  exact ⟨by decide +kernel, t, h, by decide +kernel, by decide +kernel, by decide +kernel, of_decide_eq_true hp⟩

/-- EncodeDependsOnItsInputsOnly: the same grid with W and H exchanged, and what ENCODE does not read changed; ENCODE
succeeds. -/
theorem witness_same_encode_inputs :
    let s := ve3
    let s' : State := { loaded 1 11 3 3 0 (filled 33 0xFF ++ [0x12]) [0x77] with rlen := 5, status := 0x00000046#32 }
    s'.operands.pixels = s.operands.pixels ∧ s'.operands.C = s.operands.C ∧ s'.operands.k = s.operands.k ∧
    s'.operands.L = s.operands.L ∧
    (∀ a < s.operands.gridBytes, s'.readByte .pixIn a = s.readByte .pixIn a) ∧
    (∀ j < s.operands.L, s'.readByte .payIn j = s.readByte .payIn j) ∧
    nextAnd (exec .encode s) (fun t => t.status == 0x00000002#32) = true := by decide +kernel

/-- EncodingAgainLeavesNoTrace: an empty payload, then one byte over its output grid. -/
theorem witness_encode_again :
    let s := loaded 14 1 3 3 0 (filled 42 0xFF) []
    let u := loaded 14 1 3 3 1 (filled 32 0xFE ++ filled 10 0xFF) [0xA5]
    let u' := loaded 14 1 3 3 1 (filled 42 0xFF) [0xA5]
    (1 ≤ s.operands.k ∧ s.operands.k ≤ s.operands.C ∧ s.operands.frameBits ≤ s.operands.cap) ∧
    ∃ t, exec .encode s = .next t ∧ (u.operands = u'.operands ∧ u.operands.pixels = s.operands.pixels ∧
      u.operands.C = s.operands.C ∧ u.operands.k = s.operands.k ∧ s.operands.frameBits ≤ u.operands.frameBits ∧
      u.operands.frameBits ≤ u.operands.cap) ∧
      (∀ a < s.operands.gridBytes, u.readByte .pixIn a = t.readByte .pixOut a) ∧
      (∀ a < s.operands.gridBytes, u'.readByte .pixIn a = s.readByte .pixIn a) ∧
      (∀ j < u.operands.L, u'.readByte .payIn j = u.readByte .payIn j) := by
  intro s u u'
  obtain ⟨t, h, hp⟩ := next_of_nextAnd (o := exec .encode s)
    (p := fun t => decide (∀ a < s.operands.gridBytes, u.readByte .pixIn a = t.readByte .pixOut a)) (by decide +kernel)
  exact ⟨by decide +kernel, t, h, by decide +kernel, of_decide_eq_true hp, by decide +kernel, by decide +kernel⟩

/-- DecodeDependsOnTheCarrierOnly: other upper bits, other unselected channels, another PLEN; DECODE succeeds. -/
theorem witness_same_carrier :
    let s := loaded 8 4 2 1 0 (filled 64 0x54) []
    let s' : State := { loaded 4 8 2 1 7 ((List.range 64).map fun a => BitVec.ofNat 8 (if a % 2 = 0 then 0xAA else 0xFF))
      [0x01] with rlen := 5 }
    s'.operands.pixels = s.operands.pixels ∧ s'.operands.C = s.operands.C ∧ s'.operands.k = s.operands.k ∧
    (∀ p < s.operands.pixels, ∀ n < s.operands.k,
      lsbGet (s'.readByte .pixIn (p * s.operands.C + n)) = lsbGet (s.readByte .pixIn (p * s.operands.C + n))) ∧
    nextAnd (exec .decode s) (fun t => t.status == 0x00000002#32) = true := by decide +kernel

/-- DecodeAfterEncodeReturnsThePayload: VE3's output grid, as a host copies it. -/
theorem witness_round_trip :
    (1 ≤ ve3.operands.k ∧ ve3.operands.k ≤ ve3.operands.C ∧ ve3.operands.frameBits ≤ ve3.operands.cap) ∧
    ∃ t, exec .encode ve3 = .next t ∧ ve3Encoded.operands.pixels = ve3.operands.pixels ∧
      ve3Encoded.operands.C = ve3.operands.C ∧ ve3Encoded.operands.k = ve3.operands.k ∧
      ∀ i < ve3.operands.frameBits,
        ve3Encoded.carrierBit i = lsbGet (t.readByte .pixOut (seqPlace ve3.operands.C ve3.operands.k i).a) := by
  obtain ⟨t, h, hp⟩ := next_of_nextAnd (o := exec .encode ve3)
    (p := fun t => decide (∀ i < ve3.operands.frameBits,
      ve3Encoded.carrierBit i = lsbGet (t.readByte .pixOut (seqPlace ve3.operands.C ve3.operands.k i).a)))
    (by decide +kernel)
  exact ⟨by decide +kernel, t, h, by decide +kernel, by decide +kernel, by decide +kernel, of_decide_eq_true hp⟩

/-- StepKeepsTheInvariant, StatusFieldsAfterEveryStep, WordAccessHostIsNeverStopped, WordAccessHostRunsAreSafe: a state of
the invariant with an ENCODE pending, which answers a next state. -/
theorem witness_invariant_step :
    let s : State := { ve3 with hostQueue := [.writeReg 0x00 4 0x00000000#32, .readReg 0x04 4] }
    s.Inv ∧ (∀ act ∈ s.hostQueue, act.wordAccess = true) ∧ ∃ t, step s = .next t :=
  ⟨by decide +kernel, by decide +kernel, (next_of_nextAnd (p := fun _ => true) (by decide +kernel)).imp fun _ h => h.1⟩

/-- RlenChangesOnlyByDecodeOrReset: by a DECODE, and by reset. -/
theorem witness_rlen_changes :
    (∃ s t, s = { loaded 5 2 4 4 1 p1Out [] with hostQueue := [.writeReg 0x00 4 0x00000001#32] } ∧ step s = .next t ∧
      t.rlen ≠ s.rlen) ∧
    ∃ s t, s = { State.reset with rlen := 5, hostQueue := [.reset] } ∧ step s = .next t ∧ t.rlen ≠ s.rlen := by
  constructor
  · obtain ⟨t, h, hp⟩ := next_of_nextAnd
      (o := step { loaded 5 2 4 4 1 p1Out [] with hostQueue := [.writeReg 0x00 4 0x00000001#32] })
      (p := fun t => decide (t.rlen ≠ 0)) (by decide +kernel)
    exact ⟨_, t, rfl, h, of_decide_eq_true hp⟩
  · exact ⟨_, _, rfl, rfl, by decide +kernel⟩

/-- CommandsNeverWriteTheirInputs: an ENCODE and a DECODE that succeed, and one of each that ends with an error. -/
theorem witness_commands_end :
    (∃ t, exec .encode p1 = .next t ∧ t.err = false) ∧
    (∃ t, exec .decode (loaded 5 2 4 4 1 p1Out []) = .next t ∧ t.err = false) ∧
    (∃ t, exec .encode (loaded 13 1 3 3 1 (filled 39 0xFF) [0x80]) = .next t ∧ t.err = true) ∧
    ∃ t, exec .decode p6 = .next t ∧ t.err = true := by
  refine ⟨?_, ?_, ?_, ?_⟩
  · exact (next_of_nextAnd (p := fun t => decide (t.err = false)) (by decide +kernel)).imp fun _ h => ⟨h.1, of_decide_eq_true h.2⟩
  · exact (next_of_nextAnd (p := fun t => decide (t.err = false)) (by decide +kernel)).imp fun _ h => ⟨h.1, of_decide_eq_true h.2⟩
  · exact (next_of_nextAnd (p := fun t => decide (t.err = true)) (by decide +kernel)).imp fun _ h => ⟨h.1, of_decide_eq_true h.2⟩
  · exact (next_of_nextAnd (p := fun t => decide (t.err = true)) (by decide +kernel)).imp fun _ h => ⟨h.1, of_decide_eq_true h.2⟩

/-- BoundedMemoriesRefuseOrAgree: one byte short in each memory, exactly enough in both; for DECODE a decoded length one
above the payload memory and exactly in it, a DECODE that ends with an error, and exactly `(PIX_MEM_SIZE − 32) div 8`. -/
theorem witness_bounded :
    39 < p1.operands.gridBytes ∧ 0 < p1.operands.L ∧ p1.operands.gridBytes ≤ 40 ∧ p1.operands.L ≤ 1 ∧
    (40 - 32) / 8 ≤ 1 ∧
    (let s := loaded 5 2 4 4 1 p1Out [];
      s.operands.gridBytes ≤ 40 ∧ 1 ≤ s.operands.k ∧ s.operands.k ≤ s.operands.C ∧
      32 + 8 * spelled s.carrierBit 0 32 ≤ s.operands.cap ∧
      0 < spelled s.carrierBit 0 32 ∧ spelled s.carrierBit 0 32 ≤ 1) ∧
    p6.operands.gridBytes ≤ 40 ∧ ¬ 32 + 8 * spelled p6.carrierBit 0 32 ≤ p6.operands.cap := by decide +kernel

end Sys2Proof.Tests
end

