-- ==== Sys2Proof/Proofs/Reset.lean ====
section
/-! PROOFS. The reset state, and the commands when the channel count is invalid. -/

namespace Sys2Proof.Machine

theorem exec_encode (s : State) : exec .encode s = execEncode s := rfl

theorem exec_decode (s : State) : exec .decode s = execDecode s := rfl

/-- Both commands make the channel count check first (60_exceptions.md R162, R168). -/
theorem exec_of_invalidChannels {s : State} (hk : s.operands.invalidChannels = true) {i : Instr}
    (hi : i ∈ [Instr.encode, Instr.decode]) :
    exec i s = .next (raise .invalidChannelCount (startCommand s)) := by
  rcases List.mem_pair.1 hi with rfl | rfl
  · simpa [hk, exec_encode] using execEncode_cases s
  · simpa [hk, exec_decode] using execDecode_cases s

/-- The STATUS word of InvalidChannelCount (60_exceptions.md R162). -/
theorem statusError_invalidChannelCount : statusError .invalidChannelCount = 0x00000046#32 := by decide

/-- Every register reads 0 to the host at reset (10_state.md R26). -/
theorem State.readRegister_reset (r : Reg) : State.reset.readRegister r = 0 := by
  cases r <;> rfl

/-- With nothing programmed the channel count check fails: `k = 0` (10_state.md R26). -/
theorem State.invalidChannels_reset : State.reset.operands.invalidChannels = true :=
  (Operands.invalidChannels_iff _).2 (.inl rfl)

/-- Settles O1: the registers hold 0 by definition, and at reset the channel count check of either command fails, which
writes STATUS and the working state alone. -/
theorem resetStateAndFirstCommand : Obligations.ResetStateAndFirstCommand := by
  unfold Obligations.ResetStateAndFirstCommand
  refine ⟨rfl, rfl, rfl, rfl, rfl, rfl, rfl, rfl, State.readRegister_reset, fun i hi => ?_⟩
  refine ⟨_, exec_of_invalidChannels State.invalidChannels_reset hi, ?_, fun sp a => ?_⟩
  · rw [raise_status, statusError_invalidChannelCount]
  · rw [raise_readByte, startCommand_readByte]

end Sys2Proof.Machine
end

