-- ==== Sys2Proof/Proofs/CommandWord.lean ====
section
/-! PROOFS. The command word: the decoder reads bit 0 alone, and the two rows of the opcode map split the words by it. -/

namespace Sys2Proof

theorem decodeWord_of_bit_false {c : Word} (h : c.getLsbD 0 = false) : decodeWord c = .encode := by
  rw [decodeWord, h]; rfl

theorem decodeWord_of_bit_true {c : Word} (h : c.getLsbD 0 = true) : decodeWord c = .decode := by
  rw [decodeWord, h]; rfl

/-- Bits 31:1 of a command word are ignored (30_encoding.md R66). -/
theorem decodeWord_congr {c c' : Word} (h : c'.getLsbD 0 = c.getLsbD 0) : decodeWord c' = decodeWord c := by
  rw [decodeWord, decodeWord, h]

/-- The mask of both rows keeps the OP bit alone (30_encoding.md R66). -/
theorem and_opMask (c : Word) : c &&& 0x00000001#32 = (BitVec.ofBool (c.getLsbD 0)).setWidth 32 :=
  BitVec.and_one_eq_setWidth_ofBool_getLsbD

theorem and_opMask_eq_zero_iff (c : Word) : c &&& 0x00000001#32 = 0x00000000#32 ↔ c.getLsbD 0 = false := by
  rw [and_opMask]
  cases c.getLsbD 0 <;> decide

theorem and_opMask_eq_one_iff (c : Word) : c &&& 0x00000001#32 = 0x00000001#32 ↔ c.getLsbD 0 = true := by
  rw [and_opMask]
  cases c.getLsbD 0 <;> decide

/-- The row of ENCODE is selected exactly when OP is 0 (30_encoding.md R66). -/
theorem encodeRow_selects (c : Word) :
    OpcodeRow.selects ⟨0x00000000#32, 0x00000001#32, .encode⟩ c = !c.getLsbD 0 := by
  rw [Bool.eq_iff_iff, OpcodeRow.selects, beq_iff_eq, and_opMask_eq_zero_iff, Bool.not_eq_true']

/-- The row of DECODE is selected exactly when OP is 1 (30_encoding.md R66). -/
theorem decodeRow_selects (c : Word) :
    OpcodeRow.selects ⟨0x00000001#32, 0x00000001#32, .decode⟩ c = c.getLsbD 0 := by
  rw [Bool.eq_iff_iff, OpcodeRow.selects, beq_iff_eq, and_opMask_eq_one_iff]

/-- A word selects one row of the opcode map, the one of the command it decodes to (30_encoding.md R66). -/
theorem opcodeMap_filter_selects (c : Word) :
    (opcodeMap.filter fun r => r.selects c).map OpcodeRow.instr = [decodeWord c] := by
  rw [opcodeMap, List.filter_cons, List.filter_cons, encodeRow_selects, decodeRow_selects]
  cases h : c.getLsbD 0 with
  | false => rw [decodeWord_of_bit_false h]; rfl
  | true => rw [decodeWord_of_bit_true h]; rfl

/-- Settles O12: under the mask a word is its bit 0, which is what the decoder reads and what tells the two rows
apart. -/
theorem commandWordSelectsOneRow : Obligations.CommandWordSelectsOneRow := by
  unfold Obligations.CommandWordSelectsOneRow
  refine ⟨rfl, fun c => ⟨fun h => ?_, fun h => ?_, opcodeMap_filter_selects c, fun _ => decodeWord_congr⟩⟩
  · exact decodeWord_of_bit_false ((and_opMask_eq_zero_iff c).1 h)
  · exact decodeWord_of_bit_true ((and_opMask_eq_one_iff c).1 h)

end Sys2Proof
end

