-- ==== Sys2Proof/Proofs/UnframeRemainder.lean ====
section
/-! PROOFS. UNFRAME reads the length field and the positions the length requires, and no bit after them. -/

namespace Sys2Proof.Machine

theorem exec_unframe (s : State) : exec .unframe s = execUnframe s := rfl

/-- The length field spells the number UNFRAME reads (40_bitframing.md R85). -/
theorem valBE_lengthField {bits : List Bool} (h : 32 ≤ bits.length) :
    valBE (bits.take 32) = spelled (fun i => bits.getD i false) 0 32 := by
  have htab : bits = (List.range bits.length).map fun i => bits.getD i false :=
    List.ext_getElem (by simp) fun i hi _ => by simp [hi]
  exact (unframe_tabulated htab).1 h

/-- UNFRAME succeeds where the bits hold a length field and the payload it declares (40_bitframing.md R85). -/
theorem unframeOp_of_frameLength_le {s : State} (h32 : 32 ≤ s.bits.length)
    (hlen : frameLength (valBE (s.bits.take 32)) ≤ s.bits.length) :
    unframeOp s = .ok ((List.range (valBE (s.bits.take 32))).foldl extractPayloadByte
      { s with len := BitVec.ofNat 32 (valBE (s.bits.take 32)) }) := by
  rw [unframeOp, if_neg (not_lt.2 h32)]
  exact if_neg (not_lt.2 hlen)

/-- A payload byte within the bits is extracted alike when bits are appended. -/
theorem extractPayloadByte_append {s : State} {j : Nat} (h : 32 + 8 * j + 8 ≤ s.bits.length) (T : List Bool) :
    extractPayloadByte { s with bits := s.bits ++ T } j = { extractPayloadByte s j with bits := s.bits ++ T } := by
  have hslice : ((s.bits ++ T).drop (32 + 8 * j)).take 8 = (s.bits.drop (32 + 8 * j)).take 8 := by
    rw [List.drop_append_of_le_length (by omega), List.take_append_of_le_length (by rw [List.length_drop]; omega)]
  simp only [extractPayloadByte, hslice]
  rfl

/-- A payload within the bits is extracted alike when bits are appended. -/
theorem extractPayload_append (s : State) (T : List Bool) {n : Nat} (h : frameLength n ≤ s.bits.length) :
    (List.range n).foldl extractPayloadByte { s with bits := s.bits ++ T } =
      { (List.range n).foldl extractPayloadByte s with bits := s.bits ++ T } := by
  rw [frameLength] at h
  induction n with
  | zero => rfl
  | succ n ih =>
    have hbits : ((List.range n).foldl extractPayloadByte s).bits = s.bits := by rw [(extractPayload_spec s n).1]
    simp only [List.range_succ, List.foldl_append, List.foldl_cons, List.foldl_nil]
    rw [ih (by omega), ← hbits, extractPayloadByte_append (by rw [hbits]; omega)]

/-- An UNFRAME that succeeds does the same when bits are appended (40_bitframing.md R88). -/
theorem unframeOp_append {s t : State} (h : unframeOp s = .ok t) (T : List Bool) :
    unframeOp { s with bits := s.bits ++ T } = .ok { t with bits := s.bits ++ T } := by
  obtain ⟨h32, hlen, hl, -⟩ := unframeOp_ok h
  rw [hl] at hlen
  have htake : (s.bits ++ T).take 32 = s.bits.take 32 := List.take_append_of_le_length h32
  have hle : s.bits.length ≤ (s.bits ++ T).length := by simp
  obtain rfl := Except.ok.inj ((unframeOp_of_frameLength_le h32 hlen).symm.trans h)
  rw [unframeOp_of_frameLength_le (h32.trans hle) (by rw [htake]; exact hlen.trans hle), htake]
  exact congrArg Except.ok
    (extractPayload_append { s with len := BitVec.ofNat 32 (valBE (s.bits.take 32)) } T hlen)

/-- UNFRAME run on its own returns the length it has read (40_bitframing.md R85). -/
theorem exec_unframe_of_ok {s t : State} (h : unframeOp s = .ok t) :
    exec .unframe s = .next { t with opResult := some (.length t.len) } := by
  rw [exec_unframe, execUnframe, h]

/-- Settles O18: a length field and a payload that lie within S are the same positions of S ++ T. -/
theorem unframeIgnoresTheRemainder : Obligations.UnframeIgnoresTheRemainder := by
  unfold Obligations.UnframeIgnoresTheRemainder
  intro s T h32 hlen
  rw [← valBE_lengthField h32] at hlen
  have hok := unframeOp_of_frameLength_le h32 hlen
  exact ⟨_, exec_unframe_of_ok hok, exec_unframe_of_ok (unframeOp_append hok T)⟩

end Sys2Proof.Machine
end

