-- ==== Sys2Proof/Proofs/CarrierBits.lean ====
section
/-! PROOFS. The carrier-bit operations, bit by bit: each law is read off `lsbSet_getLsbD`. -/

namespace Sys2Proof.Machine

/-- LSBSET keeps the upper bits (41_sequencer.md R108 (b)): the mask is 0 at the one bit that LSBSET changes. -/
@[simp] theorem lsbSet_and_upper (v : Byte) (b : Bool) : lsbSet v b &&& 0xFE#8 = v &&& 0xFE#8 := by
  refine BitVec.eq_of_getLsbD_eq fun j _ => ?_
  rw [BitVec.getLsbD_and, BitVec.getLsbD_and, lsbSet_getLsbD]
  obtain rfl | hj := eq_or_ne j 0
  · simp
  · rw [if_neg hj]

/-- LSBSET of the bit that LSBGET reads changes nothing (41_sequencer.md R108 (c)). -/
@[simp] theorem lsbSet_lsbGet (v : Byte) : lsbSet v (lsbGet v) = v := by
  refine BitVec.eq_of_getLsbD_eq fun j _ => ?_
  rw [lsbSet_getLsbD, lsbGet]
  split_ifs with hj
  · rw [hj]
  · rfl

/-- The last of two LSBSETs of one byte decides (41_sequencer.md R108 (d)). -/
@[simp] theorem lsbSet_lsbSet (v : Byte) (b b' : Bool) : lsbSet (lsbSet v b) b' = lsbSet v b' := by
  refine BitVec.eq_of_getLsbD_eq fun j _ => ?_
  simp only [lsbSet_getLsbD]
  split_ifs <;> rfl

/-- Settles O25: bit 0 is the bit last set and every other bit is the operand's, which is all that the four laws say. -/
theorem carrierBitLaws : Obligations.CarrierBitLaws := by
  unfold Obligations.CarrierBitLaws
  exact fun v b b' => ⟨lsbGet_lsbSet v b, lsbSet_and_upper v b, lsbSet_lsbGet v, lsbSet_lsbSet v b b'⟩

end Sys2Proof.Machine
end

