-- ==== Sys2Proof/Proofs/EncodedByte.lean ====
section
/-! PROOFS. The bytes of an encoded grid, `State.encodedByte`: by position, by channel, and against the cover byte. -/

namespace Sys2Proof.Machine

/-- Channel `n < C` of one of `N` pixels lies below `N*C`. -/
theorem pixelAddress_lt {N C p n : Nat} (hp : p < N) (hn : n < C) : pixelAddress C p n < N * C :=
  calc p * C + n < p * C + C := by omega
    _ = (p + 1) * C := by ring
    _ ≤ N * C := Nat.mul_le_mul_right C hp

/-- A byte is its upper bits plus its lowest bit; checked over the 256 bytes. -/
theorem toNat_eq_upper_add_lsb (v : Byte) : v.toNat = (v &&& 0xFE#8).toNat + (lsbGet v).toNat := by
  revert v
  decide

/-- Two bytes with the same upper bits differ by at most one (42_bitplanewriter.md R129 (b)). -/
theorem toNat_le_succ_of_upper_eq {v w : Byte} (h : v &&& 0xFE#8 = w &&& 0xFE#8) : v.toNat ≤ w.toNat + 1 := by
  have hv := toNat_eq_upper_add_lsb v
  have hw := toNat_eq_upper_add_lsb w
  have hbit := Bool.toNat_le (lsbGet v)
  rw [h] at hv
  omega

/-- The frame of an empty payload is 32 zero bits (42_bitplanewriter.md R129 (c)). -/
theorem frameBit_of_length_zero (pay : Nat → Byte) {i : Nat} (hi : i < 32) : frameBit 0 pay i = false := by
  rw [frameBit, if_pos hi, Nat.zero_testBit]

/-- An encoded byte is its cover byte with some lowest bit. -/
theorem State.encodedByte_eq_lsbSet (s : State) (limit a : Nat) :
    ∃ b, s.encodedByte limit a = lsbSet (s.readByte .pixIn a) b := by
  rw [State.encodedByte]
  split
  · exact ⟨_, rfl⟩
  · exact ⟨_, (lsbSet_lsbGet _).symm⟩

/-- At the place of position `i` an encoded grid carries frame bit `i`, where the frame reaches that far. -/
theorem State.encodedByte_seqPlace {s : State} (hk : 1 ≤ s.operands.k) (hkC : s.operands.k ≤ s.operands.C)
    (limit i : Nat) :
    s.encodedByte limit (seqPlace s.operands.C s.operands.k i).a =
      if i < limit then
        lsbSet (s.readByte .pixIn (seqPlace s.operands.C s.operands.k i).a)
          (frameBit s.operands.L (s.readByte .payIn) i)
      else s.readByte .pixIn (seqPlace s.operands.C s.operands.k i).a := by
  have hn : i % s.operands.k < s.operands.k := Nat.mod_lt i hk
  obtain ⟨hdiv, hmod⟩ := pixelAddress_div_mod (p := i / s.operands.k) (hn.trans_le hkC)
  simp only [State.encodedByte, seqPlace, hdiv, hmod, hn, true_and, Nat.div_add_mod']

/-- An address that is the place of no position below the limit keeps its cover byte. -/
theorem State.encodedByte_of_not_place {s : State} {limit a : Nat}
    (h : ∀ i < limit, a ≠ (seqPlace s.operands.C s.operands.k i).a) :
    s.encodedByte limit a = s.readByte .pixIn a := by
  refine if_neg fun ⟨hn, hi⟩ => h _ hi ?_
  rw [seqPlace_pos hn]
  exact (Nat.div_add_mod' a s.operands.C).symm

/-- An unselected channel keeps its cover byte (42_bitplanewriter.md R129 (a)). -/
theorem State.encodedByte_unselected {s : State} {p n : Nat} (hn : n < s.operands.C) (hk : s.operands.k ≤ n)
    (limit : Nat) :
    s.encodedByte limit (pixelAddress s.operands.C p n) = s.readByte .pixIn (pixelAddress s.operands.C p n) := by
  refine if_neg fun ⟨hsel, _⟩ => ?_
  rw [(pixelAddress_div_mod hn).2] at hsel
  omega

/-- Within the grid a frame is cut at the capacity by itself: every selected channel carries a position below it
(42_bitplanewriter.md R125). -/
theorem State.encodedByte_min_cap (s : State) {a : Nat} (ha : a < s.operands.gridBytes) (limit : Nat) :
    s.encodedByte (min limit s.operands.cap) a = s.encodedByte limit a := by
  have hp : a / s.operands.C < s.operands.pixels := Nat.div_lt_of_lt_mul (by rwa [Nat.mul_comm])
  refine if_congr (and_congr_right fun hn => ?_) rfl rfl
  exact lt_min_iff.trans (and_iff_left (pixelAddress_lt hp hn))

end Sys2Proof.Machine
end

