-- ==== Sys2Proof/Proofs/BitPlaneWriter.lean ====
section
/-! PROOFS. ENCODE in closed form and its properties: what a successful ENCODE leaves in PIX_OUT is
`State.encodedByte`, so each statement is read off a law of that byte. -/

namespace Sys2Proof.Machine

/-- ENCODE completes where the footprint fits, the channel count is valid and, under STRICT, the frame fits the
capacity; the grid in PIX_OUT is then the encoded one (42_bitplanewriter.md R121, R125). -/
theorem encodeWith_completes {cfg : Config} {s : State} (hfit : encodeFits cfg s.operands = true)
    (hk : 1 ≤ s.operands.k) (hkC : s.operands.k ≤ s.operands.C)
    (hcap : cfg.capPolicy = .strict → s.operands.frameBits ≤ s.operands.cap) :
    ∃ t, encodeWith cfg s = .next t ∧ t.status = statusComplete ∧
      ∀ a < s.operands.gridBytes, t.readByte .pixOut a = s.encodedByte s.operands.frameBits a := by
  have hvalid := s.operands.validChannels_iff.2 ⟨hk, hkC⟩
  rcases encodeWith_cases cfg s with ⟨h, -⟩ | ⟨-, h, -⟩ | ⟨-, -, ⟨hstrict, hover⟩, -⟩ | ⟨-, -, -, h⟩
  · simp [hfit] at h
  · simp [hvalid] at h
  · exact absurd (hcap hstrict) (not_le.2 (s.operands.exceedsCapacity_iff.1 hover))
  · refine ⟨_, h, complete_status _, fun a ha => ?_⟩
    obtain ⟨-, hread, -⟩ := encodeDone_spec s
    rw [hread, if_pos ha]

/-- Under STRICT an ENCODE that succeeds had a frame within the capacity (42_bitplanewriter.md R125). -/
theorem frameBits_le_cap_of_strict_complete {cfg : Config} {s t : State} (hstrict : cfg.capPolicy = .strict)
    (ht : encodeWith cfg s = .next t) (hstatus : t.status = statusComplete) :
    s.operands.frameBits ≤ s.operands.cap := by
  rcases encodeWith_cases cfg s with ⟨-, h⟩ | ⟨-, -, h⟩ | ⟨-, -, -, h⟩ | ⟨-, -, hfits, -⟩
  · simp [h] at ht
  · obtain rfl := Host.Outcome.next.inj (h.symm.trans ht)
    exact absurd hstatus (by rw [raise_status]; decide)
  · obtain rfl := Host.Outcome.next.inj (h.symm.trans ht)
    exact absurd hstatus (by rw [raise_status]; decide)
  · exact s.operands.fitsCapacity_iff.1 (Bool.eq_false_iff.2 fun hover => hfits ⟨hstrict, hover⟩)

/-- Settles O32: the encoded grid of a completed ENCODE, whose frame the capacity cuts by itself. -/
theorem encodeClosedFormUnderEitherPolicy : Obligations.EncodeClosedFormUnderEitherPolicy := by
  unfold Obligations.EncodeClosedFormUnderEitherPolicy
  refine ⟨fun _ => rfl, fun _ _ _ => frameBits_le_cap_of_strict_complete, fun cfg s hfit hk hkC hcap => ?_⟩
  obtain ⟨t, ht, hstatus, hread⟩ := encodeWith_completes hfit hk hkC hcap
  refine ⟨t, ht, hstatus, fun a ha => ?_, fun p hp n hn => pixelAddress_lt hp hn⟩
  rw [hread a ha, s.encodedByte_min_cap ha]

/-- ENCODE on this hardware completes with the encoded grid, whenever the channel count is valid and the frame fits. -/
theorem exec_encode_completes {s : State} (hk : 1 ≤ s.operands.k) (hkC : s.operands.k ≤ s.operands.C)
    (hcap : s.operands.frameBits ≤ s.operands.cap) :
    ∃ t, exec .encode s = .next t ∧
      ∀ a < s.operands.gridBytes, t.readByte .pixOut a = s.encodedByte s.operands.frameBits a := by
  obtain ⟨t, ht, -, hread⟩ := encodeWith_completes (encodeFits_hardware _) hk hkC fun _ => hcap
  exact ⟨t, ht, hread⟩

/-- Settles O35: the frame does not reach a position from `F` on, so the encoded byte at its place is the cover byte. -/
theorem encodeCopiesTheRemainder : Obligations.EncodeCopiesTheRemainder := by
  unfold Obligations.EncodeCopiesTheRemainder
  intro s hk hkC hcap
  obtain ⟨t, ht, hread⟩ := exec_encode_completes hk hkC hcap
  refine ⟨t, ht, fun i hF hi => ?_⟩
  rw [hread _ (seqPlace_lt hk hkC hi), State.encodedByte_seqPlace hk hkC, if_neg (not_lt.2 hF)]

/-- Settles O36: each property is the law of the encoded byte at an unselected channel, at any address, at no place of the
frame, or at the place of a position. -/
theorem encodeProperties : Obligations.EncodeProperties := by
  unfold Obligations.EncodeProperties
  intro s hk hkC hcap
  obtain ⟨t, ht, hread⟩ := exec_encode_completes hk hkC hcap
  have hcarrier : ∀ i < s.operands.frameBits,
      lsbGet (t.readByte .pixOut (seqPlace s.operands.C s.operands.k i).a) =
        frameBit s.operands.L (s.readByte .payIn) i := fun i hi => by
    rw [hread _ (seqPlace_lt hk hkC (hi.trans_le hcap)), State.encodedByte_seqPlace hk hkC, if_pos hi, lsbGet_lsbSet]
  refine ⟨t, ht, fun p hp n hn hkn => ?isolation, fun a ha => ?upperBits, fun hL => ?emptyPayload, hcarrier⟩
  case isolation =>
    exact (hread _ (pixelAddress_lt hp hn)).trans (State.encodedByte_unselected hn hkn _)
  case upperBits =>
    have hupper : t.readByte .pixOut a &&& 0xFE#8 = s.readByte .pixIn a &&& 0xFE#8 := by
      obtain ⟨b, hb⟩ := s.encodedByte_eq_lsbSet s.operands.frameBits a
      rw [hread a ha, hb, lsbSet_and_upper]
    exact ⟨hupper, toNat_le_succ_of_upper_eq hupper, toNat_le_succ_of_upper_eq hupper.symm⟩
  case emptyPayload =>
    have hF : s.operands.frameBits = 32 := by rw [Operands.frameBits, hL]; rfl
    rw [hF] at hread hcarrier
    refine ⟨fun i hi => ?_, fun a ha hplace => ?_⟩
    · rw [hcarrier i hi, hL, frameBit_of_length_zero _ hi]
    · rw [hread a ha, State.encodedByte_of_not_place hplace]

end Sys2Proof.Machine
end

