-- ==== Sys2Proof/Proofs/BitPlaneReader.lean ====
section
/-! PROOFS. DECODE: its outcome as a function of the carrier bits, and the round trip. Each statement is read off the
two ends of DECODE over a valid channel count, `exec_decode_of_truncated` and `exec_decode_of_complete`. -/

namespace Sys2Proof.Machine

/-- The STATUS word of TruncatedFrame (60_exceptions.md R164). -/
theorem statusError_truncatedFrame : statusError .truncatedFrame = 0x00000036#32 := by decide

/-- The STATUS word of an error is never the one of a normal end (10_state.md R12). -/
theorem statusError_ne_statusComplete (e : CodecError) : statusError e ≠ statusComplete := by
  cases e <;> decide

/-- The lowest bit of a byte is the byte modulo 2 (41_sequencer.md R107). -/
theorem lsbGet_eq_mod_two (v : Byte) : lsbGet v = (v.toNat % 2 == 1) := by
  rw [lsbGet, BitVec.getLsbD, Nat.testBit_zero, beq_eq_decide]

/-- `width` positions spell a number below `2^width`. -/
theorem spelled_lt (bit : Nat → Bool) (start width : Nat) : spelled bit start width < 2 ^ width := by
  simpa [valBE_map_range] using valBE_lt ((List.range width).map fun r => bit (start + r))

/-- What positions spell depends on the bits at those positions alone. -/
theorem spelled_congr {bit bit' : Nat → Bool} {start width bound : Nat} (h : ∀ i < bound, bit' i = bit i)
    (hle : start + width ≤ bound) : spelled bit' start width = spelled bit start width := by
  refine Finset.sum_congr rfl fun r hr => ?_
  have hr : r < width := Finset.mem_range.1 hr
  rw [h (start + r) (by omega)]

/-- The capacity of a truncated grid is below the framed length it declares: a capacity below 32 is below every such
length (43_bitplanereader.md R145). -/
theorem State.truncated_iff (s : State) :
    s.truncated ↔ s.operands.cap < frameLength (spelled s.carrierBit 0 32) := by
  rw [State.truncated, frameLength]
  omega

/-! The two ends of DECODE over a valid channel count. -/

/-- What DECODE leaves when it completes (43_bitplanereader.md R145, R146). -/
structure Decoded (s t : State) : Prop where
  frame : t = { s with status := statusComplete, payOut := t.payOut, rlen := t.rlen }.withWorkingOf t
  rlen : t.rlen.toNat = spelled s.carrierBit 0 32
  payOut : ∀ a, t.readByte .payOut a =
    if a < t.rlen.toNat then BitVec.ofNat 8 (spelled s.carrierBit (32 + 8 * a) 8) else s.readByte .payOut a

theorem exec_decode_of_truncated {s : State} (hvalid : s.operands.invalidChannels = false) (htr : s.truncated) :
    exec .decode s = .next (raise .truncatedFrame (startCommand s)) := by
  rcases execDecode_cases s with ⟨h, -⟩ | ⟨-, -, h⟩ | ⟨-, h, -⟩
  · simp [hvalid] at h
  · exact h
  · exact absurd htr h

theorem exec_decode_of_complete {s : State} (hvalid : s.operands.invalidChannels = false) (htr : ¬ s.truncated) :
    ∃ t, exec .decode s = .next t ∧ Decoded s t := by
  rcases execDecode_cases s with ⟨h, -⟩ | ⟨-, h, -⟩ | ⟨-, -, t, h, hframe, hrlen, hpay, -⟩
  · simp [hvalid] at h
  · exact absurd h htr
  · exact ⟨t, h, hframe, hrlen, hpay⟩

theorem Decoded.status {s t : State} (h : Decoded s t) : t.status = statusComplete := by
  rw [h.frame]; rfl

/-- A payload byte is the number its eight carrier bits spell (43_bitplanereader.md R145). -/
theorem Decoded.payOut_toNat {s t : State} (h : Decoded s t) {j : Nat} (hj : j < t.rlen.toNat) :
    (t.readByte .payOut j).toNat = spelled s.carrierBit (32 + 8 * j) 8 := by
  rw [h.payOut, if_pos hj, BitVec.toNat_ofNat, Nat.mod_eq_of_lt (spelled_lt _ _ _)]

/-- DECODE writes PAY_OUT below RLEN and no other byte (43_bitplanereader.md R146). -/
theorem Decoded.readByte_of_not_payload {s t : State} (h : Decoded s t) {sp : Space} {a : Nat}
    (ha : sp ≠ .payOut ∨ t.rlen.toNat ≤ a) : t.readByte sp a = s.readByte sp a := by
  by_cases hsp : sp = .payOut
  · subst hsp
    rw [h.payOut, if_neg (not_lt.2 (ha.resolve_left fun hne => hne rfl))]
  · refine State.readByte_congr ?_ ?_ a
    · rw [h.frame]
      cases sp with
      | payOut => exact absurd rfl hsp
      | _ => rfl
    · rw [h.frame]; rfl

/-- The bit of `Obligations.DecodeCompletesWithThePayload` is the carrier bit of the model. -/
theorem State.carrierBit_eq (s : State) :
    s.carrierBit = fun i =>
      (s.readByte .pixIn (i / s.channels.toNat * s.pcc.toNat + i % s.channels.toNat)).toNat % 2 == 1 :=
  funext fun _ => lsbGet_eq_mod_two _

/-- Settles O39: the statement's `bit` is the carrier bit, and its two cases are the two ends of DECODE. -/
theorem decodeCompletesWithThePayload : Obligations.DecodeCompletesWithThePayload := by
  unfold Obligations.DecodeCompletesWithThePayload
  intro s C k cap bit length hk hkC
  have hvalid : s.operands.invalidChannels = false := s.operands.validChannels_iff.2 ⟨hk, hkC⟩
  have hbit : s.carrierBit = bit := s.carrierBit_eq
  have hlength : spelled s.carrierBit 0 32 = length := by rw [hbit]
  refine ⟨fun htr => ?truncated, fun _ hlen => ?complete⟩
  case truncated =>
    rw [← hlength] at htr
    exact ⟨_, exec_decode_of_truncated hvalid htr, statusError_truncatedFrame⟩
  case complete =>
    rw [← hlength] at hlen
    obtain ⟨t, ht, hdec⟩ := exec_decode_of_complete hvalid (s.truncated_iff.not.2 (not_lt.2 hlen))
    have hrlen : t.rlen.toNat = length := hdec.rlen.trans hlength
    rw [← hrlen, ← hbit]
    exact ⟨t, ht, rfl, fun j hj => hdec.payOut_toNat hj, fun sp a ha => hdec.readByte_of_not_payload ha, hdec.frame⟩

/-! What DECODE depends on. -/

/-- Two states hold the same carrier: the same pixel count, `C` and `k`, and the same lowest bit in every selected
channel (43_bitplanereader.md R149). -/
structure State.SameCarrier (s s' : State) : Prop where
  pixels : s'.operands.pixels = s.operands.pixels
  C : s'.operands.C = s.operands.C
  k : s'.operands.k = s.operands.k
  lsb : ∀ p < s.operands.pixels, ∀ n < s.operands.k,
    lsbGet (s'.readByte .pixIn (pixelAddress s.operands.C p n)) =
      lsbGet (s.readByte .pixIn (pixelAddress s.operands.C p n))

namespace State.SameCarrier

variable {s s' : State}

theorem invalidChannels (h : s.SameCarrier s') : s'.operands.invalidChannels = s.operands.invalidChannels := by
  rw [Operands.invalidChannels, h.C, h.k, Operands.invalidChannels]

theorem cap (h : s.SameCarrier s') : s'.operands.cap = s.operands.cap := by
  show s'.operands.pixels * s'.operands.k = s.operands.pixels * s.operands.k
  rw [h.pixels, h.k]

/-- Every position below the capacity lies in a selected channel of the grid (41_sequencer.md R101). -/
theorem carrierBit (h : s.SameCarrier s') : ∀ i < s.operands.cap, s'.carrierBit i = s.carrierBit i := by
  intro i hi
  have hi : i < s.operands.pixels * s.operands.k := hi
  have hp : i / s.operands.k < s.operands.pixels := Nat.div_lt_of_lt_mul (by rwa [Nat.mul_comm])
  have hn : i % s.operands.k < s.operands.k := Nat.mod_lt i (Nat.pos_of_mul_pos_left (Nat.zero_lt_of_lt hi))
  rw [State.carrierBit, h.C, h.k]
  exact h.lsb _ hp _ hn

theorem truncated_iff (h : s.SameCarrier s') : s'.truncated ↔ s.truncated := by
  by_cases h32 : s.operands.cap < 32
  · exact iff_of_true (.inl (h.cap.trans_lt h32)) (.inl h32)
  · rw [State.truncated_iff, State.truncated_iff, h.cap, spelled_congr h.carrierBit (by omega)]

/-- Two completed DECODEs of the same carrier return the same length and the same payload. -/
theorem decoded_eq (h : s.SameCarrier s') {t t' : State} (hfit : ¬ s.truncated) (hdec : Decoded s t)
    (hdec' : Decoded s' t') :
    t'.rlen = t.rlen ∧ ∀ j < t.rlen.toNat, t'.readByte .payOut j = t.readByte .payOut j := by
  have hcap : 32 + 8 * t.rlen.toNat ≤ s.operands.cap := by
    rw [hdec.rlen]; exact not_lt.1 (s.truncated_iff.not.1 hfit)
  have hrlen : t'.rlen = t.rlen := BitVec.eq_of_toNat_eq <| by
    rw [hdec'.rlen, hdec.rlen, spelled_congr h.carrierBit (by omega)]
  refine ⟨hrlen, fun j hj => BitVec.eq_of_toNat_eq ?_⟩
  rw [hdec'.payOut_toNat (by rwa [hrlen]), hdec.payOut_toNat hj, spelled_congr h.carrierBit (by omega)]

end State.SameCarrier

/-- Settles O40: the same carrier puts both states in the same case of DECODE. -/
theorem decodeDependsOnTheCarrierOnly : Obligations.DecodeDependsOnTheCarrierOnly := by
  unfold Obligations.DecodeDependsOnTheCarrierOnly
  intro s s' hpixels hC hkeq hlsb
  have hsame : s.SameCarrier s' := ⟨hpixels, hC, hkeq, hlsb⟩
  have hpolicy : ∀ policy : CapPolicy, decodeWith ⟨policy, none, none⟩ s = exec .decode s := fun _ => rfl
  cases hinv : s.operands.invalidChannels with
  | true =>
    have hinv' : s'.operands.invalidChannels = true := hsame.invalidChannels.trans hinv
    exact ⟨_, _, exec_of_invalidChannels hinv (by simp), exec_of_invalidChannels hinv' (by simp), rfl,
      fun hs => absurd hs (statusError_ne_statusComplete _), hpolicy⟩
  | false =>
    have hinv' : s'.operands.invalidChannels = false := hsame.invalidChannels.trans hinv
    by_cases htr : s.truncated
    · have htr' : s'.truncated := hsame.truncated_iff.2 htr
      exact ⟨_, _, exec_decode_of_truncated hinv htr, exec_decode_of_truncated hinv' htr', rfl,
        fun hs => absurd hs (statusError_ne_statusComplete _), hpolicy⟩
    · obtain ⟨t, ht, hdec⟩ := exec_decode_of_complete hinv htr
      obtain ⟨t', ht', hdec'⟩ := exec_decode_of_complete hinv' (hsame.truncated_iff.not.2 htr)
      exact ⟨t, t', ht, ht', hdec'.status.trans hdec.status.symm, fun _ => hsame.decoded_eq htr hdec hdec', hpolicy⟩

/-! The round trip. -/

/-- The capacity policy makes no difference to a frame that fits (42_bitplanewriter.md R126). -/
theorem encodeWith_capPolicy {s : State} (hcap : s.operands.frameBits ≤ s.operands.cap) (cfg : Config)
    (policy : CapPolicy) : encodeWith { cfg with capPolicy := policy } s = encodeWith cfg s := by
  simp only [encodeWith, s.operands.fitsCapacity_iff.2 hcap, Bool.and_false]
  rfl

/-- An encoded grid carries the frame (42_bitplanewriter.md R129 (d)). -/
theorem State.lsbGet_encodedByte_seqPlace {s : State} (hk : 1 ≤ s.operands.k) (hkC : s.operands.k ≤ s.operands.C)
    {limit i : Nat} (hi : i < limit) :
    lsbGet (s.encodedByte limit (seqPlace s.operands.C s.operands.k i).a) =
      frameBit s.operands.L (s.readByte .payIn) i := by
  rw [State.encodedByte_seqPlace hk hkC, if_pos hi, lsbGet_lsbSet]

/-- DECODE of a grid that carries the frame of a payload completes with that payload. -/
theorem exec_decode_of_carries_frame {u : State} {L : Word} {pay : Nat → Byte}
    (hvalid : u.operands.invalidChannels = false) (hcap : frameLength L.toNat ≤ u.operands.cap)
    (hbit : ∀ i < frameLength L.toNat, u.carrierBit i = frameBit L.toNat pay i) :
    ∃ v, exec .decode u = .next v ∧ v.status = statusComplete ∧ v.rlen = L ∧
      ∀ j < L.toNat, v.readByte .payOut j = pay j := by
  obtain ⟨hlength, hbyte⟩ := spelled_frame L pay
  rw [← spelled_congr hbit (by rw [frameLength]; omega)] at hlength
  have hfit : ¬ u.truncated := u.truncated_iff.not.2 (not_lt.2 (hlength ▸ hcap))
  obtain ⟨v, hv, hdec⟩ := exec_decode_of_complete hvalid hfit
  have hrlen : v.rlen = L := BitVec.eq_of_toNat_eq (hdec.rlen.trans hlength)
  refine ⟨v, hv, hdec.status, hrlen, fun j hj => BitVec.eq_of_toNat_eq ?_⟩
  rw [hdec.payOut_toNat (by rwa [hrlen]), spelled_congr hbit (by rw [frameLength]; omega), hbyte]

/-- Settles O41: ENCODE leaves the frame in the carrier bits, and DECODE of a grid that carries a frame returns the
payload it was made of. -/
theorem decodeAfterEncodeReturnsThePayload : Obligations.DecodeAfterEncodeReturnsThePayload := by
  unfold Obligations.DecodeAfterEncodeReturnsThePayload
  intro s hk hkC hcap
  obtain ⟨t, ht, hstatus, hread⟩ := encodeWith_completes (encodeFits_hardware _) hk hkC fun _ => hcap
  refine ⟨t, ht, (encodeWith_capPolicy hcap Config.hardware .permissive).trans ht, hstatus,
    fun u hpixels hC hkeq hcarrier => exec_decode_of_carries_frame ?valid ?fits fun i hi => ?carries⟩
  case valid => exact u.operands.validChannels_iff.2 ⟨hkeq ▸ hk, hkeq ▸ hC ▸ hkC⟩
  case fits =>
    have hcapeq : u.operands.cap = s.operands.cap := congrArg₂ (· * ·) hpixels hkeq
    exact hcapeq ▸ hcap
  case carries =>
    rw [hcarrier i hi, hread _ (seqPlace_lt hk hkC (hi.trans_le hcap))]
    exact State.lsbGet_encodedByte_seqPlace hk hkC hi

end Sys2Proof.Machine
end

