-- ==== Sys2Proof/Proofs/Exceptions.lean ====
section
/-! PROOFS. How the commands end: the three errors, their priority, and which command can report which. -/

namespace Sys2Proof.Machine

/-- The STATUS word of CapacityExceeded (60_exceptions.md R163). -/
theorem statusError_capacityExceeded : statusError .capacityExceeded = 0x00000016#32 := by decide

/-- A command that raises an error from its start writes STATUS and the working state, and no byte of any memory
(60_exceptions.md R166). -/
theorem exists_of_raise {i : Instr} {s : State} {e : CodecError} {w : Word}
    (h : exec i s = .next (raise e (startCommand s))) (hw : statusError e = w) :
    ∃ t, exec i s = .next t ∧ t = { s with status := w }.withWorkingOf t ∧
      ∀ sp a, t.readByte sp a = s.readByte sp a := by
  subst hw
  exact ⟨_, h, raise_startCommand e s, fun sp a => by rw [raise_readByte, startCommand_readByte]⟩

/-- Settles O27: both commands raise the error first of all, and 255 is the largest number in an 8-bit register. -/
theorem invalidChannelCountEndsBothCommands : Obligations.InvalidChannelCountEndsBothCommands := by
  unfold Obligations.InvalidChannelCountEndsBothCommands
  intro s C k
  have hC : C < 2 ^ 8 := s.pcc.isLt
  refine ⟨fun hbad i hi => ?_, by omega, by omega⟩
  have hinv : s.operands.invalidChannels = true := s.operands.invalidChannels_iff.2 hbad
  exact exists_of_raise (exec_of_invalidChannels hinv hi) statusError_invalidChannelCount

/-! Which command can report which error. -/

/-- ENCODE on this hardware raises CapacityExceeded after the channel count check (42_bitplanewriter.md R124). -/
theorem exec_encode_of_exceedsCapacity {s : State} (hvalid : s.operands.invalidChannels = false)
    (hover : s.operands.exceedsCapacity = true) :
    exec .encode s = .next (raise .capacityExceeded (startCommand s)) := by
  simpa [hvalid, hover, exec_encode] using execEncode_cases s

/-- What STATUS holds after an ENCODE, under any configuration (60_exceptions.md R162, R163, R168). -/
theorem encodeWith_status {cfg : Config} {s t : State} (h : encodeWith cfg s = .next t) :
    t.status = statusError .invalidChannelCount ∨
    (t.status = statusError .capacityExceeded ∧ cfg.capPolicy = .strict ∧ s.operands.invalidChannels = false ∧
      s.operands.exceedsCapacity = true) ∨
    t.status = statusComplete := by
  rcases encodeWith_cases cfg s with ⟨-, h'⟩ | ⟨-, -, h'⟩ | ⟨-, hvalid, ⟨hstrict, hover⟩, h'⟩ | ⟨-, -, -, h'⟩
  · simp [h'] at h
  · obtain rfl := Host.Outcome.next.inj (h'.symm.trans h)
    exact .inl (raise_status _ _)
  · obtain rfl := Host.Outcome.next.inj (h'.symm.trans h)
    exact .inr (.inl ⟨raise_status _ _, hstrict, hvalid, hover⟩)
  · obtain rfl := Host.Outcome.next.inj (h'.symm.trans h)
    exact .inr (.inr (complete_status _))

/-- What STATUS holds after a DECODE, under any configuration (60_exceptions.md R162, R164, R168). -/
theorem decodeWith_status {cfg : Config} {s t : State} (h : decodeWith cfg s = .next t) :
    t.status = statusError .invalidChannelCount ∨ t.status = statusError .truncatedFrame ∨
    t.status = statusComplete := by
  rcases decodeWith_cases cfg s with ⟨-, h'⟩ | ⟨-, -, h'⟩ | ⟨-, -, -, h'⟩ | ⟨-, -, -, u, -, -, -, -, h'⟩
  · simp [h'] at h
  · obtain rfl := Host.Outcome.next.inj (h'.symm.trans h)
    exact .inl (raise_status _ _)
  · obtain rfl := Host.Outcome.next.inj (h'.symm.trans h)
    exact .inr (.inl (raise_status _ _))
  · rw [h'] at h
    split at h
    · obtain rfl := Host.Outcome.next.inj h
      exact .inr (.inr (complete_status _))
    · simp at h

/-- An ENCODE that ends with CapacityExceeded met exactly its condition (60_exceptions.md R163). -/
theorem encodeWith_capacityExceeded {cfg : Config} {s t : State} (h : encodeWith cfg s = .next t)
    (hstatus : t.status = 0x00000016#32) :
    cfg.capPolicy = .strict ∧ s.operands.invalidChannels = false ∧ s.operands.exceedsCapacity = true := by
  rcases encodeWith_status h with h' | ⟨-, hcond⟩ | h'
  · exact absurd (h'.symm.trans hstatus) (by decide)
  · exact hcond
  · exact absurd (h'.symm.trans hstatus) (by decide)

/-- DECODE never reports CapacityExceeded (60_exceptions.md R163). -/
theorem decodeWith_status_ne_capacityExceeded {cfg : Config} {s t : State} (h : decodeWith cfg s = .next t) :
    t.status ≠ 0x00000016#32 := by
  rcases decodeWith_status h with h' | h' | h' <;> rw [h'] <;> decide

/-- ENCODE never reports TruncatedFrame (60_exceptions.md R164). -/
theorem encodeWith_status_ne_truncatedFrame {cfg : Config} {s t : State} (h : encodeWith cfg s = .next t) :
    t.status ≠ 0x00000036#32 := by
  rcases encodeWith_status h with h' | ⟨h', -⟩ | h' <;> rw [h'] <;> decide

/-- Settles O28: an ENCODE that ends with the error is STRICT, so none under PERMISSIVE does. -/
theorem capacityExceededEndsStrictEncode : Obligations.CapacityExceededEndsStrictEncode := by
  unfold Obligations.CapacityExceededEndsStrictEncode
  intro s cap
  refine ⟨fun hk hkC hcap => ?raised, fun cfg t hpermissive ht hstatus => ?permissive,
    fun cfg t ht hstatus => ?converse, fun _ _ => decodeWith_status_ne_capacityExceeded⟩
  case raised =>
    have hvalid : s.operands.invalidChannels = false := s.operands.validChannels_iff.2 ⟨hk, hkC⟩
    have hover : s.operands.exceedsCapacity = true := s.operands.exceedsCapacity_iff.2 hcap
    exact exists_of_raise (exec_encode_of_exceedsCapacity hvalid hover) statusError_capacityExceeded
  case permissive =>
    obtain ⟨hstrict, -, -⟩ := encodeWith_capacityExceeded ht hstatus
    simp [hpermissive] at hstrict
  case converse =>
    obtain ⟨hstrict, hvalid, hover⟩ := encodeWith_capacityExceeded ht hstatus
    obtain ⟨hk, hkC⟩ := s.operands.validChannels_iff.1 hvalid
    exact ⟨hstrict, hk, hkC, s.operands.exceedsCapacity_iff.1 hover⟩

/-- Settles O29: the condition is `State.truncated`, and an ENCODE has other ends. -/
theorem truncatedFrameEndsDecode : Obligations.TruncatedFrameEndsDecode := by
  unfold Obligations.TruncatedFrameEndsDecode
  intro s cap
  refine ⟨fun hk hkC htr => ?_, fun _ _ => encodeWith_status_ne_truncatedFrame⟩
  have hvalid : s.operands.invalidChannels = false := s.operands.validChannels_iff.2 ⟨hk, hkC⟩
  exact exists_of_raise (exec_decode_of_truncated hvalid htr) statusError_truncatedFrame

/-! The one outcome a command reports. -/

/-- The operation `i` run from `s` ends, DONE and not BUSY, with the STATUS word `w` (60_exceptions.md R168). -/
def Reports (i : Instr) (s : State) (w : Word) : Prop :=
  ∃ t, exec i s = .next t ∧ t.done = true ∧ t.busy = false ∧ t.status = w

theorem reports_of_raise {i : Instr} {s u : State} {e : CodecError} {w : Word} (h : exec i s = .next (raise e u))
    (hw : statusError e = w) : Reports i s w :=
  ⟨_, h, raise_done e u, raise_busy e u, (raise_status e u).trans hw⟩

theorem reports_of_statusComplete {i : Instr} {s t : State} (h : exec i s = .next t) (ht : t.status = statusComplete) :
    Reports i s 0x00000002#32 :=
  ⟨t, h, by rw [State.done, ht]; rfl, by rw [State.busy, ht]; rfl, ht⟩

/-- Settles O30: the cases of each chain of conditions are the ends of the command, in the order of its checks. -/
theorem commandsEndAndReportTheFirstError : Obligations.CommandsEndAndReportTheFirstError := by
  unfold Obligations.CommandsEndAndReportTheFirstError
  intro s C k cap
  by_cases hbad : k = 0 ∨ C < k
  · have hinv : s.operands.invalidChannels = true := s.operands.invalidChannels_iff.2 hbad
    simp only [if_pos hbad]
    exact ⟨reports_of_raise (exec_of_invalidChannels hinv (by simp)) statusError_invalidChannelCount,
      reports_of_raise (exec_of_invalidChannels hinv (by simp)) statusError_invalidChannelCount⟩
  · have hvalid : s.operands.invalidChannels = false :=
      Bool.eq_false_iff.2 (s.operands.invalidChannels_iff.not.2 hbad)
    simp only [if_neg hbad]
    refine ⟨?encode, ?decode⟩
    case encode =>
      split_ifs with hcap
      · have hover : s.operands.exceedsCapacity = true := s.operands.exceedsCapacity_iff.2 hcap
        exact reports_of_raise (exec_encode_of_exceedsCapacity hvalid hover) statusError_capacityExceeded
      · obtain ⟨hk, hkC⟩ := s.operands.validChannels_iff.1 hvalid
        obtain ⟨t, ht, hstatus, -⟩ := encodeWith_completes (encodeFits_hardware _) hk hkC fun _ => not_lt.1 hcap
        exact reports_of_statusComplete ht hstatus
    case decode =>
      split_ifs with htr
      · exact reports_of_raise (exec_decode_of_truncated hvalid htr) statusError_truncatedFrame
      · obtain ⟨t, ht, hdec⟩ := exec_decode_of_complete hvalid htr
        exact reports_of_statusComplete ht hdec.status

end Sys2Proof.Machine
end

