-- ==== Sys2Proof/Proofs/HostPort.lean ====
section
/-! PROOFS. The host port: what each transaction does while BUSY = 0 and while BUSY = 1, one equation per kind of access,
and the statements read off these. -/

namespace Sys2Proof.Machine

/-- A step performs the oldest pending transaction on the state with that transaction taken. -/
theorem step_cons (s : State) (act : HostAction) (rest : List HostAction) :
    step { s with hostQueue := act :: rest } = performHost act { s with hostQueue := rest } := rfl

/-- With nothing pending a step answers the state itself (60_exceptions.md R176). -/
theorem step_of_empty {s : State} (h : s.hostQueue = []) : step s = .next s := by
  rw [step, h]

theorem whenIdle_of_idle {s : State} (h : s.busy = false) (t : State) : whenIdle s t = .next t := by
  rw [whenIdle, h]; rfl

theorem whenIdle_of_busy {s : State} (h : s.busy = true) (t : State) : whenIdle s t = .refused .busyAccess := by
  rw [whenIdle, h]; rfl

/-! Register accesses by whole aligned words. -/

theorem registerIndex_word (i : Nat) : registerIndex (4 * i) 4 = some i := by
  rw [registerIndex, if_pos ⟨rfl, Nat.mul_mod_right 4 i⟩, Nat.mul_div_cancel_left i (by decide)]

@[simp] theorem Reg.ofIndex_index (r : Reg) : Reg.ofIndex r.index = some r := by cases r <;> rfl

/-- Indices 8 and above do not exist (10_state.md R19). -/
theorem Reg.ofIndex_of_ge {i : Nat} (h : 8 ≤ i) : Reg.ofIndex i = none := by
  obtain ⟨j, rfl⟩ := Nat.exists_eq_add_of_le' h
  rfl

/-- An index below 8 is a register's. -/
theorem Reg.exists_index_of_lt {i : Nat} (h : i < 8) : ∃ r : Reg, r.index = i := by
  interval_cases i
  exacts [⟨.cmd, rfl⟩, ⟨.status, rfl⟩, ⟨.width, rfl⟩, ⟨.height, rfl⟩, ⟨.pcc, rfl⟩, ⟨.channels, rfl⟩, ⟨.plen, rfl⟩,
    ⟨.rlen, rfl⟩]

theorem hostReadRegister_status (s : State) :
    hostReadRegister (4 * Reg.status.index) 4 s = .next { s with readData := some (.word s.status) } := rfl

/-- A read of a register other than STATUS needs BUSY = 0 and returns what the register reads (10_state.md R11 to R18). -/
theorem hostReadRegister_of_ne_status {r : Reg} (hr : r ≠ .status) (s : State) :
    hostReadRegister (4 * r.index) 4 s = whenIdle s { s with readData := some (.word (s.readRegister r)) } := by
  cases r with
  | status => exact absurd rfl hr
  | _ => rfl

/-- A register that does not exist reads 0 (10_state.md R19). -/
theorem hostReadRegister_absent {i : Nat} (hi : 8 ≤ i) (s : State) :
    hostReadRegister (4 * i) 4 s = whenIdle s { s with readData := some (.word 0) } := by
  simp only [hostReadRegister, registerIndex_word, Reg.ofIndex_of_ge hi]

/-- While BUSY = 0 every register can be read. -/
theorem hostReadRegister_of_idle {s : State} (h : s.busy = false) (r : Reg) :
    hostReadRegister (4 * r.index) 4 s = .next { s with readData := some (.word (s.readRegister r)) } := by
  by_cases hr : r = .status
  · subst hr; exact hostReadRegister_status s
  · rw [hostReadRegister_of_ne_status hr, whenIdle_of_idle h]

theorem hostWriteRegister_cmd (c : Word) (s : State) :
    hostWriteRegister (4 * Reg.cmd.index) 4 c s = writeCommand c s := rfl

/-- A write of a register other than CMD needs BUSY = 0 and stores (10_state.md R12 to R18). -/
theorem hostWriteRegister_of_ne_cmd {r : Reg} (hr : r ≠ .cmd) (v : Word) (s : State) :
    hostWriteRegister (4 * r.index) 4 v s = whenIdle s (s.writeRegister r v) := by
  cases r with
  | cmd => exact absurd rfl hr
  | _ => rfl

/-- A write to a register that does not exist is ignored (10_state.md R19). -/
theorem hostWriteRegister_absent {i : Nat} (hi : 8 ≤ i) (v : Word) (s : State) :
    hostWriteRegister (4 * i) 4 v s = whenIdle s s := by
  simp only [hostWriteRegister, registerIndex_word, Reg.ofIndex_of_ge hi]

theorem writeCommand_of_idle {s : State} (h : s.busy = false) (c : Word) : writeCommand c s = exec (decodeWord c) s := by
  rw [writeCommand, h]; rfl

theorem writeCommand_of_busy {s : State} (h : s.busy = true) (c : Word) : writeCommand c s = .next s := by
  rw [writeCommand, h]; rfl

/-- A whole-word register access is one of a register or of an index beyond the eight. -/
theorem register_of_wordAccess {offset bytes : Nat} (h : (bytes == 4 && offset % 4 == 0) = true) :
    bytes = 4 ∧ ((∃ r : Reg, offset = 4 * r.index) ∨ ∃ i ≥ 8, offset = 4 * i) := by
  obtain ⟨hbytes, halign⟩ : bytes = 4 ∧ offset % 4 = 0 := by simpa using h
  refine ⟨hbytes, ?_⟩
  obtain hi | hi := Nat.lt_or_ge (offset / 4) 8
  · obtain ⟨r, hr⟩ := Reg.exists_index_of_lt hi
    exact .inl ⟨r, by omega⟩
  · exact .inr ⟨offset / 4, hi, by omega⟩

theorem registerIndex_of_not_word {offset bytes : Nat} (h : (bytes == 4 && offset % 4 == 0) = false) :
    registerIndex offset bytes = none :=
  if_neg fun ⟨hbytes, halign⟩ => by simp [hbytes, halign] at h

/-! The statements about register accesses. -/

/-- Settles O2: the fields of the reset state, and nothing listed in any memory. -/
theorem resetTransactionFromAnyState : Obligations.ResetTransactionFromAnyState := by
  unfold Obligations.ResetTransactionFromAnyState
  intro s rest
  exact ⟨applyReset { s with hostQueue := rest }, step_cons s .reset rest, rfl, rfl, rfl, rfl, rfl, rfl, rfl, rfl,
    applyReset_readByte _, rfl, rfl⟩

/-- Settles O3: a read of a register that exists returns what it reads, any other returns 0. -/
theorem hostReadOfEachRegister : Obligations.HostReadOfEachRegister := by
  unfold Obligations.HostReadOfEachRegister
  intro s rest hidle after
  have hread (r : Reg) : after (4 * r.index) (s.readRegister r) :=
    (step_cons s _ rest).trans (hostReadRegister_of_idle (s := { s with hostQueue := rest }) hidle r)
  rw [BitVec.ofNat_toNat, BitVec.ofNat_toNat]
  refine ⟨hread .cmd, hread .status, hread .width, hread .height, hread .pcc, hread .channels, hread .plen, hread .rlen,
    fun i hi => ?_⟩
  exact (step_cons s _ rest).trans ((hostReadRegister_absent hi _).trans (whenIdle_of_idle hidle _))

/-- The stored byte of PCC and CHANNELS is the written word modulo 256 (10_state.md R15, R16). -/
theorem ofNat_mod_256_eq_setWidth (v : Word) : BitVec.ofNat 8 (v.toNat % 256) = v.setWidth 8 :=
  BitVec.eq_of_toNat_eq (by simp)

/-- Settles O4: a write of a register that exists stores, any other is ignored. -/
theorem hostWriteOfEachRegister : Obligations.HostWriteOfEachRegister := by
  unfold Obligations.HostWriteOfEachRegister
  intro s rest v hidle after s'
  have hwrite (r : Reg) (hr : r ≠ .cmd) : after (4 * r.index) (s'.writeRegister r v) :=
    (step_cons s _ rest).trans ((hostWriteRegister_of_ne_cmd hr v s').trans (whenIdle_of_idle hidle _))
  rw [ofNat_mod_256_eq_setWidth]
  refine ⟨hwrite .status (by decide), hwrite .width (by decide), hwrite .height (by decide), hwrite .pcc (by decide),
    hwrite .channels (by decide), hwrite .plen (by decide), hwrite .rlen (by decide), fun i hi => ?_⟩
  exact (step_cons s _ rest).trans ((hostWriteRegister_absent hi v s').trans (whenIdle_of_idle hidle _))

/-- While BUSY = 1 every transaction by whole words but a STATUS read, a CMD write and reset is refused
(70_reset_and_hazards.md R198). -/
theorem performHost_of_busy {s : State} (hbusy : s.busy = true) {act : HostAction} (hword : act.wordAccess = true)
    (hreset : act ≠ .reset) (hstatus : act ≠ .readReg 0x04 4) (hcmd : ∀ c, act ≠ .writeReg 0x00 4 c) :
    performHost act s = .refused .busyAccess := by
  cases act with
  | reset => exact absurd rfl hreset
  | writeMem sp a b => exact whenIdle_of_busy hbusy _
  | readMem sp a => exact whenIdle_of_busy hbusy _
  | copyPixel a => exact whenIdle_of_busy hbusy _
  | readReg offset bytes =>
    obtain ⟨rfl, ⟨r, rfl⟩ | ⟨i, hi, rfl⟩⟩ := register_of_wordAccess hword
    · have hr : r ≠ .status := fun h => hstatus (by rw [h]; rfl)
      exact (hostReadRegister_of_ne_status hr s).trans (whenIdle_of_busy hbusy _)
    · exact (hostReadRegister_absent hi s).trans (whenIdle_of_busy hbusy _)
  | writeReg offset bytes v =>
    obtain ⟨rfl, ⟨r, rfl⟩ | ⟨i, hi, rfl⟩⟩ := register_of_wordAccess hword
    · have hr : r ≠ .cmd := fun h => hcmd v (by rw [h]; rfl)
      exact (hostWriteRegister_of_ne_cmd hr v s).trans (whenIdle_of_busy hbusy _)
    · exact (hostWriteRegister_absent hi v s).trans (whenIdle_of_busy hbusy _)

/-- Settles O5: the two accesses that are served, and the refusal of every other. -/
theorem busyRuleOfTheHostPort : Obligations.BusyRuleOfTheHostPort := by
  unfold Obligations.BusyRuleOfTheHostPort
  intro s rest hbusy
  refine ⟨fun c => ?_, ?_, fun act hword hreset hstatus hcmd => ?_⟩
  · exact (step_cons s _ rest).trans (writeCommand_of_busy (s := { s with hostQueue := rest }) hbusy c)
  · exact (step_cons s _ rest).trans (hostReadRegister_status _)
  · exact (step_cons s act rest).trans
      (performHost_of_busy (s := { s with hostQueue := rest }) hbusy hword hreset hstatus hcmd)

/-- A register access that is not of one whole aligned word is refused, BUSY or not (10_state.md R19). -/
theorem performHost_of_not_wordAccess {act : HostAction} (h : act.wordAccess = false) (s : State) :
    performHost act s = .refused .narrowRegisterAccess := by
  cases act with
  | readReg offset bytes => rw [performHost, hostReadRegister, registerIndex_of_not_word h]
  | writeReg offset bytes v => rw [performHost, hostWriteRegister, registerIndex_of_not_word h]
  | writeMem sp a b => simp [HostAction.wordAccess] at h
  | readMem sp a => simp [HostAction.wordAccess] at h
  | copyPixel a => simp [HostAction.wordAccess] at h
  | reset => simp [HostAction.wordAccess] at h

/-- Settles O6: no register has the index of such an access. -/
theorem narrowRegisterAccessIsRefused : Obligations.NarrowRegisterAccessIsRefused := by
  unfold Obligations.NarrowRegisterAccessIsRefused
  intro s rest act hnarrow
  exact (step_cons s act rest).trans (performHost_of_not_wordAccess hnarrow _)

/-- Settles O9: there is no transaction to perform. -/
theorem idleBlockKeepsItsState : Obligations.IdleBlockKeepsItsState := by
  unfold Obligations.IdleBlockKeepsItsState
  exact fun s => step_of_empty

/-- A write of a word to CMD while BUSY = 0 runs the command the word decodes to (10_state.md R11). -/
theorem step_writeCommand {s : State} (hidle : s.busy = false) (rest : List HostAction) (c : Word) :
    step { s with hostQueue := .writeReg 0x00 4 c :: rest } = exec (decodeWord c) { s with hostQueue := rest } :=
  (step_cons s _ rest).trans (writeCommand_of_idle (s := { s with hostQueue := rest }) hidle c)

/-- Settles O10: a write of CMD is no register store but the start of a command. -/
theorem stepRunsTheDecodedCommand : Obligations.StepRunsTheDecodedCommand := by
  unfold Obligations.StepRunsTheDecodedCommand
  exact fun s rest c hidle => step_writeCommand hidle rest c

/-- Every 32-bit number is a command word (30_encoding.md R66). -/
theorem decodeTableWord_of_lt {w : Nat} (h : w < 2 ^ 32) :
    decodeTableWord 32 w = some (decodeWord (BitVec.ofNat 32 w)) := by
  rw [decodeTableWord, Nat.mod_eq_of_lt h, decode, if_pos h]

/-- The mask 0xFFFFFFFE clears BUSY. -/
theorem busy_of_mask (s : State) : State.busy { s with status := s.status &&& 0xFFFFFFFE#32 } = false := by
  rw [State.busy, BitVec.getLsbD_and]
  exact Bool.and_false _

/-- Settles O11: the placed transaction is a CMD write that finds BUSY = 0. -/
theorem fetchWordRunsNext : Obligations.FetchWordRunsNext := by
  unfold Obligations.FetchWordRunsNext
  intro s w hw
  refine ⟨?_, decodeTableWord_of_lt hw⟩
  rw [State.withFetchWord, Nat.mod_eq_of_lt hw]
  exact step_writeCommand (busy_of_mask s) s.hostQueue _

/-! The memories as the host sees them. -/

/-- A memory write replaces memories and nothing else. -/
theorem State.writeByte_frame (s : State) (sp : Space) (a : Nat) (b : Byte) :
    s.writeByte sp a b = { s with
      pixIn := (s.writeByte sp a b).pixIn, pixOut := (s.writeByte sp a b).pixOut,
      payIn := (s.writeByte sp a b).payIn, payOut := (s.writeByte sp a b).payOut } := by
  cases sp <;> rfl

/-- What a host holds pending, or has read, is in no memory. -/
theorem State.readByte_host (s : State) (q : List HostAction) (v : Option HostValue) (sp : Space) (a : Nat) :
    State.readByte { s with hostQueue := q, readData := v } sp a = s.readByte sp a :=
  State.readByte_congr (by cases sp <;> rfl) rfl a

/-- Settles O7: while BUSY = 0 a host write is `writeByte` and a host read is `readByte`. -/
theorem hostMemoryAccessIsPlainStorage : Obligations.HostMemoryAccessIsPlainStorage := by
  unfold Obligations.HostMemoryAccessIsPlainStorage
  intro s rest sp a b hidle
  refine ⟨⟨State.writeByte { s with hostQueue := rest } sp a b, ?_, fun sp' x => ?_, ?_⟩, ?_⟩
  · exact (step_cons s _ rest).trans (whenIdle_of_idle hidle _)
  · rw [State.readByte_writeByte, State.readByte_host s rest s.readData]
  · exact State.writeByte_frame _ sp a b
  · rw [← State.readByte_host s rest s.readData]
    exact (step_cons s _ rest).trans (whenIdle_of_idle hidle _)

/-- What the first `count` transactions of a COPY line have done to `s`, with `rest` still pending
(30_encoding.md R73). -/
structure Copied (s : State) (rest : List HostAction) (count : Nat) (t : State) : Prop where
  copied : ∀ a < count, t.readByte .pixIn a = s.readByte .pixOut a
  unchanged : ∀ sp a, (sp ≠ .pixIn ∨ count ≤ a) → t.readByte sp a = s.readByte sp a
  frame : t = { s with hostQueue := rest, pixIn := t.pixIn, readData := t.readData }

theorem copied_zero (s : State) (rest : List HostAction) : Copied s rest 0 { s with hostQueue := rest } where
  copied _ h := absurd h (Nat.not_lt_zero _)
  unchanged sp a _ := State.readByte_host s rest s.readData sp a
  frame := rfl

/-- One more transaction of a COPY line copies the byte at the next address. -/
theorem Copied.succ {s t : State} {rest : List HostAction} {n : Nat} (hidle : s.busy = false)
    (h : Copied s (.copyPixel n :: rest) n t) :
    ∃ u, step t = .next u ∧ Copied s rest (n + 1) u := by
  obtain ⟨hcopied, hunchanged, hframe⟩ := h
  have hbyte : t.readByte .pixOut n = s.readByte .pixOut n := hunchanged .pixOut n (.inl (by decide))
  have hread : ∀ sp a, State.readByte { t.writeByte .pixIn n (t.readByte .pixOut n) with
      hostQueue := rest, readData := some (.byte (t.readByte .pixOut n)) } sp a =
      if sp = .pixIn ∧ a = n then s.readByte .pixOut n else t.readByte sp a := fun sp a => by
    rw [State.readByte_host, State.readByte_writeByte, hbyte]
  refine ⟨_, ?_, fun a ha => (hread _ _).trans ?_, fun sp a ha => (hread _ _).trans ?_, ?_⟩
  · have hqueue : t.hostQueue = .copyPixel n :: rest := by rw [hframe]
    have hidle' : t.busy = false := by rw [hframe]; exact hidle
    rw [step, hqueue]
    exact whenIdle_of_idle hidle' _
  · obtain rfl | hne := eq_or_ne a n
    · rw [if_pos ⟨rfl, rfl⟩]
    · rw [if_neg fun hc => hne hc.2, hcopied a (by omega)]
  · rw [if_neg fun hc => ha.elim (fun hsp => hsp hc.1) (by omega), hunchanged sp a (ha.imp_right (by omega))]
  · rw [hframe]; rfl

/-- A COPY line runs to its end, one transaction for each byte (30_encoding.md R73). -/
theorem run_copyOutToIn {s : State} (hidle : s.busy = false) (count : Nat) (rest : List HostAction) :
    ∃ t, Sys2Proof.core.run count { s with hostQueue := (HostLine.copyOutToIn count).transactions ++ rest } = .next t ∧
      Copied s rest count t := by
  induction count generalizing rest with
  | zero => exact ⟨_, run_zero _, copied_zero s rest⟩
  | succ n ih =>
    obtain ⟨t, ht, hcopied⟩ := ih (.copyPixel n :: rest)
    obtain ⟨u, hu, hcopied'⟩ := hcopied.succ hidle
    have hline : (HostLine.copyOutToIn (n + 1)).transactions ++ rest =
        (HostLine.copyOutToIn n).transactions ++ .copyPixel n :: rest := by
      simp [HostLine.transactions, List.range_succ]
    refine ⟨u, ?_, hcopied'⟩
    rw [hline, run_add ht, run_succ hu, run_zero]

/-- Settles O8, by induction on the transactions of the line. -/
theorem copyLineCopiesTheGrid : Obligations.CopyLineCopiesTheGrid := by
  unfold Obligations.CopyLineCopiesTheGrid
  intro s rest count hidle
  obtain ⟨t, ht, hcopied, hunchanged, hframe⟩ := run_copyOutToIn hidle count rest
  exact ⟨t, ht, hcopied, hunchanged, hframe⟩

end Sys2Proof.Machine
end

