-- ==== Sys2Proof/Proofs/Invariant.lean ====
section
/-! PROOFS. The invariant of the block: it holds at reset, every step keeps it, and under it a host that accesses
registers by whole words is always answered. -/

namespace Sys2Proof.Machine

/-- Settles O42: STATUS is 0 and nothing is listed in any memory. -/
theorem invariantAtReset : Obligations.InvariantAtReset := by
  unfold Obligations.InvariantAtReset
  decide

/-- Every step keeps the invariant. -/
theorem State.Inv.step {s t : State} (hs : s.Inv) (h : step s = .next t) : t.Inv := by
  obtain ⟨hstatus, hmem⟩ := hs
  rcases step_effect h with ⟨-, rfl⟩ | ⟨act, rest, -, heffect⟩
  · exact ⟨hstatus, hmem⟩
  · exact ⟨heffect.status_idle hstatus, heffect.memoriesWf hmem⟩

/-- Settles O43: a step does nothing or has the effect of one transaction, and either keeps both conditions. -/
theorem stepKeepsTheInvariant : Obligations.StepKeepsTheInvariant := by
  unfold Obligations.StepKeepsTheInvariant
  exact fun s t hs h => hs.step h

/-! What the invariant says of the fields of STATUS (10_state.md R12). -/

/-- The words STATUS may hold between commands, field by field. -/
theorem idleStatusWords_fields : ∀ w ∈ idleStatusWords,
    w.getLsbD 0 = false ∧ (w.getLsbD 2 = true → w.getLsbD 1 = true) ∧
    (w.getLsbD 2 = false ↔ (w >>> 4).toNat % 16 = 0) ∧ (w >>> 4).toNat % 16 ∈ [0, 1, 3, 4] ∧
    w.getLsbD 3 = false ∧ w.toNat < 2 ^ 8 := by
  intro w hw
  fin_cases hw <;> decide

/-- Settles O44: a step keeps the invariant, and the fields are those of the words it allows. -/
theorem statusFieldsAfterEveryStep : Obligations.StatusFieldsAfterEveryStep := by
  unfold Obligations.StatusFieldsAfterEveryStep
  intro s t hs h
  obtain ⟨hstatus, -⟩ := hs.step h
  obtain ⟨hbusy, herr, hecode, hcodes, hbit3, hlt⟩ := idleStatusWords_fields t.status hstatus
  refine ⟨hbusy, herr, hecode, hcodes, hbit3, fun j hj => ?_⟩
  exact Nat.testBit_lt_two_pow (hlt.trans_le (Nat.pow_le_pow_right (by decide) hj))

/-! Progress. -/

/-- While BUSY = 0 every transaction by whole words is answered with a next state. -/
theorem performHost_of_idle {s : State} (hidle : s.busy = false) {act : HostAction} (hword : act.wordAccess = true) :
    ∃ t, performHost act s = .next t := by
  cases act with
  | reset => exact ⟨_, rfl⟩
  | writeMem sp a b => exact ⟨_, whenIdle_of_idle hidle _⟩
  | readMem sp a => exact ⟨_, whenIdle_of_idle hidle _⟩
  | copyPixel a => exact ⟨_, whenIdle_of_idle hidle _⟩
  | readReg offset bytes =>
    obtain ⟨rfl, ⟨r, rfl⟩ | ⟨i, hi, rfl⟩⟩ := register_of_wordAccess hword
    · exact ⟨_, hostReadRegister_of_idle hidle r⟩
    · exact ⟨_, (hostReadRegister_absent hi s).trans (whenIdle_of_idle hidle _)⟩
  | writeReg offset bytes v =>
    obtain ⟨rfl, ⟨r, rfl⟩ | ⟨i, hi, rfl⟩⟩ := register_of_wordAccess hword
    · obtain rfl | hr := eq_or_ne r .cmd
      · obtain ⟨t, ht, -⟩ := exec_decodeWord v s
        exact ⟨t, (writeCommand_of_idle hidle v).trans ht⟩
      · exact ⟨_, (hostWriteRegister_of_ne_cmd hr v s).trans (whenIdle_of_idle hidle _)⟩
    · exact ⟨_, (hostWriteRegister_absent hi v s).trans (whenIdle_of_idle hidle _)⟩

/-- The invariant, with only transactions by whole words pending. -/
structure State.WordAccessInv (s : State) : Prop where
  inv : s.Inv
  pending : ∀ act ∈ s.hostQueue, act.wordAccess = true

/-- A step takes at most the oldest pending transaction, and adds none. -/
theorem step_hostQueue_subset {s t : State} (h : step s = .next t) : t.hostQueue ⊆ s.hostQueue := by
  rcases step_effect h with ⟨-, rfl⟩ | ⟨act, rest, hqueue, heffect⟩
  · exact List.Subset.refl _
  · rw [heffect.hostQueue, hqueue]
    exact List.subset_cons_self act rest

/-- Progress: a host that accesses registers by whole words is answered with a next state. -/
theorem State.WordAccessInv.progress {s : State} (hs : s.WordAccessInv) : ∃ t, Machine.step s = .next t := by
  obtain ⟨⟨hstatus, -⟩, hqueue⟩ := hs
  match hq : s.hostQueue with
  | [] => exact ⟨s, step_of_empty hq⟩
  | act :: rest =>
    obtain ⟨t, ht⟩ := performHost_of_idle (s := { s with hostQueue := rest }) (not_busy_of_idle hstatus)
      (hqueue act (by rw [hq]; exact List.mem_cons_self))
    exact ⟨t, by rw [Machine.step, hq]; exact ht⟩

/-- Preservation. -/
theorem State.WordAccessInv.step {s t : State} (hs : s.WordAccessInv) (h : step s = .next t) : t.WordAccessInv :=
  ⟨hs.inv.step h, fun act hact => hs.pending act (step_hostQueue_subset h hact)⟩

/-- Settles O45: progress and preservation. -/
theorem wordAccessHostIsNeverStopped : Obligations.WordAccessHostIsNeverStopped := by
  unfold Obligations.WordAccessHostIsNeverStopped
  intro s hs hqueue
  have hinv : s.WordAccessInv := ⟨hs, hqueue⟩
  obtain ⟨t, ht⟩ := hinv.progress
  obtain ⟨ht', hqueue'⟩ := hinv.step ht
  exact ⟨t, ht, ht', hqueue'⟩

/-- Every run of a host that accesses registers by whole words is safe, by induction on its steps. -/
theorem State.WordAccessInv.safeRun {s : State} (hs : s.WordAccessInv) (n : Nat) : SafeRun n s := by
  induction n generalizing s with
  | zero => exact ⟨s, run_zero s⟩
  | succ n ih =>
    obtain ⟨t, ht⟩ := hs.progress
    obtain ⟨u, hu⟩ := ih (hs.step ht)
    exact ⟨u, (run_succ ht).trans hu⟩

/-- Settles O49: the step lemma, at every step of the run. -/
theorem wordAccessHostRunsAreSafe : Obligations.WordAccessHostRunsAreSafe := by
  unfold Obligations.WordAccessHostRunsAreSafe
  exact fun n s hs hqueue => State.WordAccessInv.safeRun ⟨hs, hqueue⟩ n

end Sys2Proof.Machine
end

