-- ==== Sys2Proof/Proofs/CommandFrames.lean ====
section
/-! PROOFS. What the commands write and what they leave: the frame of each command, whichever way it ends. -/

namespace Sys2Proof.Machine

/-- Settles O26: the laws of `raise` and `complete`, whose STATUS words are the ones the statement names. -/
theorem raiseAndCompleteWriteStatusOnly : Obligations.RaiseAndCompleteWriteStatusOnly := by
  unfold Obligations.RaiseAndCompleteWriteStatusOnly
  intro s
  have hraise (e : CodecError) :
      raise e s = { s with status := 0x00000006#32 ||| (e.code <<< 4) }.withWorkingOf (raise e s) := rfl
  exact ⟨fun e => ⟨hraise e, raise_busy e s, raise_done e s, raise_err e s, raise_ecode e s⟩,
    statusError_capacityExceeded, statusError_truncatedFrame, statusError_invalidChannelCount, rfl,
    rfl, complete_busy s, complete_done s, complete_err s, complete_ecode s⟩

/-! The frame of each command. -/

/-- STATUS of an error is the one thing a failed command leaves, the working state aside (60_exceptions.md R166). -/
def Raised (s t : State) : Prop := ∃ e, t = { s with status := statusError e }.withWorkingOf t

theorem raised_of_raise {s t : State} {e : CodecError} (h : t = raise e (startCommand s)) : Raised s t :=
  ⟨e, by rw [h]; exact raise_startCommand e s⟩

/-- ENCODE raises an error, or writes PIX_OUT and STATUS (42_bitplanewriter.md R128). -/
theorem exec_encode_frame {s t : State} (h : exec .encode s = .next t) :
    Raised s t ∨ t = { s with status := statusComplete, pixOut := t.pixOut }.withWorkingOf t := by
  rw [exec_encode] at h
  rcases execEncode_cases s with ⟨-, h'⟩ | ⟨-, -, h'⟩ | ⟨-, -, h'⟩
  · exact .inl (raised_of_raise (Host.Outcome.next.inj (h.symm.trans h')))
  · exact .inl (raised_of_raise (Host.Outcome.next.inj (h.symm.trans h')))
  · obtain rfl := Host.Outcome.next.inj (h'.symm.trans h)
    exact .inr (encodeDone_spec s).1

/-- DECODE raises an error, or writes PAY_OUT, RLEN and STATUS (43_bitplanereader.md R146). -/
theorem exec_decode_frame {s t : State} (h : exec .decode s = .next t) :
    Raised s t ∨ t = { s with status := statusComplete, payOut := t.payOut, rlen := t.rlen }.withWorkingOf t := by
  rw [exec_decode] at h
  rcases execDecode_cases s with ⟨-, h'⟩ | ⟨-, -, h'⟩ | ⟨-, -, u, h', hframe, -⟩
  · exact .inl (raised_of_raise (Host.Outcome.next.inj (h.symm.trans h')))
  · exact .inl (raised_of_raise (Host.Outcome.next.inj (h.symm.trans h')))
  · obtain rfl := Host.Outcome.next.inj (h'.symm.trans h)
    exact .inr hframe

/-- A state that differs from `s` in STATUS, in what commands write and in the working state holds the operands and the
input memories of `s` (20_memory.md R41, R43). -/
theorem inputs_of_frame {s t : State} {w r : Word} {m m' : Memory}
    (ht : t = { s with status := w, pixOut := m, payOut := m', rlen := r }.withWorkingOf t) :
    t.width = s.width ∧ t.height = s.height ∧ t.pcc = s.pcc ∧ t.channels = s.channels ∧ t.plen = s.plen ∧
    (∀ a, t.readByte .pixIn a = s.readByte .pixIn a) ∧ ∀ a, t.readByte .payIn a = s.readByte .payIn a := by
  rw [ht]
  exact ⟨rfl, rfl, rfl, rfl, rfl, fun _ => rfl, fun _ => rfl⟩

/-- A command that raises an error keeps RLEN and every byte of every memory (60_exceptions.md R166). -/
theorem Raised.keeps {s t : State} (h : Raised s t) :
    t.rlen = s.rlen ∧ ∀ sp a, t.readByte sp a = s.readByte sp a := by
  obtain ⟨e, ht⟩ := h
  rw [ht]
  exact ⟨rfl, fun sp a => State.readByte_congr (by cases sp <;> rfl) rfl a⟩

/-- A command that completes reports no error. -/
theorem err_of_statusComplete {t : State} (h : t.status = statusComplete) : t.err = false := by
  rw [State.err, h]; rfl

/-- ENCODE keeps RLEN and PAY_OUT, however it ends (42_bitplanewriter.md R128). -/
theorem exec_encode_keeps {s t : State} (h : exec .encode s = .next t) :
    t.rlen = s.rlen ∧ ∀ a, t.readByte .payOut a = s.readByte .payOut a := by
  rcases exec_encode_frame h with hraised | ht
  · obtain ⟨hrlen, hread⟩ := hraised.keeps
    exact ⟨hrlen, hread .payOut⟩
  · rw [ht]
    exact ⟨rfl, fun _ => rfl⟩

/-- DECODE keeps PIX_OUT, however it ends (43_bitplanereader.md R146). -/
theorem exec_decode_keeps {s t : State} (h : exec .decode s = .next t) :
    ∀ a, t.readByte .pixOut a = s.readByte .pixOut a := by
  rcases exec_decode_frame h with hraised | ht
  · exact hraised.keeps.2 .pixOut
  · rw [ht]
    exact fun _ => rfl

/-- What either command may write: STATUS, the output memories, RLEN and the working state. -/
theorem exec_command_frame {s t : State} {i : Instr} (hi : i = .encode ∨ i = .decode) (h : exec i s = .next t) :
    ∃ w m m' r, t = { s with status := w, pixOut := m, payOut := m', rlen := r }.withWorkingOf t := by
  rcases hi with rfl | rfl
  · rcases exec_encode_frame h with ⟨e, ht⟩ | ht
    · exact ⟨_, s.pixOut, s.payOut, s.rlen, ht⟩
    · exact ⟨_, _, s.payOut, s.rlen, ht⟩
  · rcases exec_decode_frame h with ⟨e, ht⟩ | ht
    · exact ⟨_, s.pixOut, s.payOut, s.rlen, ht⟩
    · exact ⟨_, s.pixOut, _, _, ht⟩

/-- A command that reports an error has raised it. -/
theorem raised_of_err {s t : State} {i : Instr} (hi : i = .encode ∨ i = .decode) (h : exec i s = .next t)
    (herr : t.err = true) : Raised s t := by
  have hfailed : t.status ≠ statusComplete := fun hstatus => by simp [err_of_statusComplete hstatus] at herr
  rcases hi with rfl | rfl
  · exact (exec_encode_frame h).resolve_right fun ht => hfailed (by rw [ht]; rfl)
  · exact (exec_decode_frame h).resolve_right fun ht => hfailed (by rw [ht]; rfl)

/-- Settles O47: what a command may write holds none of its inputs, and an error raised keeps the rest. -/
theorem commandsNeverWriteTheirInputs : Obligations.CommandsNeverWriteTheirInputs := by
  unfold Obligations.CommandsNeverWriteTheirInputs
  intro s t i hi h
  obtain ⟨w, m, m', r, ht⟩ := exec_command_frame hi h
  obtain ⟨hW, hH, hC, hk, hL, hpix, hpay⟩ := inputs_of_frame ht
  exact ⟨hW, hH, hC, hk, hL, hpix, hpay, fun hencode => exec_encode_keeps (hencode ▸ h),
    fun hdecode => exec_decode_keeps (hdecode ▸ h), fun herr => (raised_of_err hi h herr).keeps⟩

/-! RLEN. -/

/-- A command that changes RLEN is a DECODE that succeeds (10_state.md R18). -/
theorem exec_decodeWord_rlen {c : Word} {s t : State} (h : exec (decodeWord c) s = .next t) (hrlen : t.rlen ≠ s.rlen) :
    c.getLsbD 0 = true ∧ t.status = statusComplete := by
  cases hop : c.getLsbD 0 with
  | false =>
    rw [decodeWord_of_bit_false hop] at h
    exact absurd (exec_encode_keeps h).1 hrlen
  | true =>
    rw [decodeWord_of_bit_true hop] at h
    rcases exec_decode_frame h with hraised | ht
    · exact absurd hraised.keeps.1 hrlen
    · exact ⟨rfl, by rw [ht]; rfl⟩

/-- The host writes no RLEN (10_state.md R18). -/
@[simp] theorem State.writeRegister_rlen (s : State) (r : Reg) (v : Word) : (s.writeRegister r v).rlen = s.rlen := by
  cases r <;> rfl

/-- A host transaction that changes RLEN is reset or a DECODE that succeeds (10_state.md R18). -/
theorem HostEffect.rlen {act : HostAction} {s t : State} (h : HostEffect act s t) (hrlen : t.rlen ≠ s.rlen) :
    act = .reset ∨ ∃ c : Word, act = .writeReg 0x00 4 c ∧ c.getLsbD 0 = true ∧ s.busy = false ∧
      t.status = statusComplete := by
  cases h with
  | reset ha => exact .inl ha
  | command c ha hidle hexec =>
    obtain ⟨hop, hstatus⟩ := exec_decodeWord_rlen hexec hrlen
    exact .inr ⟨c, ha, hop, hidle, hstatus⟩
  | wroteRegister r v _ _ _ ht => exact absurd (by rw [ht, State.writeRegister_rlen]) hrlen
  | ignored ht => exact absurd (by rw [ht]) hrlen
  | read v ht => exact absurd (by rw [ht]) hrlen
  | wroteByte sp a b _ _ ht => exact absurd (by rw [ht, State.writeByte_rlen]) hrlen
  | copied a _ _ ht => exact absurd (by rw [ht]; exact State.writeByte_rlen ..) hrlen

/-- Settles O46: the effects of a transaction that reach RLEN. -/
theorem rlenChangesOnlyByDecodeOrReset : Obligations.RlenChangesOnlyByDecodeOrReset := by
  unfold Obligations.RlenChangesOnlyByDecodeOrReset
  intro s t h hrlen
  rcases step_effect h with ⟨-, rfl⟩ | ⟨act, rest, hqueue, heffect⟩
  · exact absurd rfl hrlen
  · exact ⟨act, rest, hqueue, heffect.rlen hrlen⟩

end Sys2Proof.Machine
end

