-- ==== Sys2Proof/Proofs/BoundedMemories.lean ====
section
/-! PROOFS. Bounded memories: when a command is refused, and that a command within its memories does what the unbounded
machine does (20_memory.md R54, log 7). -/

namespace Sys2Proof.Machine

theorem holds_some_iff (size extent : Nat) : Config.holds (some size) extent = true ↔ extent ≤ size := by
  rw [Config.holds, decide_eq_true_iff]

theorem not_holds_some_iff (size extent : Nat) : Config.holds (some size) extent = false ↔ size < extent := by
  rw [Config.holds, decide_eq_false_iff_not, not_le]

/-! ENCODE. -/

theorem encodeWith_of_not_fits {cfg : Config} {s : State} (h : encodeFits cfg s.operands = false) :
    encodeWith cfg s = .refused .exceedsMemory := by
  rw [encodeWith, h]; rfl

/-- Where its footprint fits, ENCODE does not depend on the memory sizes. -/
theorem encodeWith_of_fits {cfg : Config} {s : State} (h : encodeFits cfg s.operands = true) :
    encodeWith cfg s = encodeWith ⟨cfg.capPolicy, none, none⟩ s := by
  rw [encodeWith, h]; rfl

/-! DECODE. -/

theorem decodeWith_of_not_holds {cfg : Config} {s : State}
    (h : Config.holds cfg.pixMemSize s.operands.gridBytes = false) :
    decodeWith cfg s = .refused .exceedsMemory := by
  rw [decodeWith, h]; rfl

/-- A DECODE that has a payload is refused where the payload memory does not hold it. -/
theorem decodeWith_of_payload_not_holds {cfg : Config} {s : State}
    (hgrid : Config.holds cfg.pixMemSize s.operands.gridBytes = true) (hvalid : s.operands.invalidChannels = false)
    (hfit : ¬ s.truncated) (hpay : Config.holds cfg.payMemSize (spelled s.carrierBit 0 32) = false) :
    decodeWith cfg s = .refused .exceedsMemory := by
  rcases decodeWith_cases cfg s with ⟨h, -⟩ | ⟨-, h, -⟩ | ⟨-, -, h, -⟩ | ⟨-, -, -, u, hlen, -, -, -, h⟩
  · simp [hgrid] at h
  · simp [hvalid] at h
  · exact absurd h hfit
  · rw [h, hlen, hpay]; rfl

/-- An UNFRAME of the carrier bits that succeeds finds a frame within the capacity, of the length they spell. -/
theorem unframeOp_decodePass_ok {s u : State} (h : unframeOp (decodePass s.operands (startCommand s)) = .ok u) :
    ¬ s.truncated ∧ u.len.toNat = spelled s.carrierBit 0 32 := by
  obtain ⟨h32, hfit, hlen, -⟩ := unframeOp_ok h
  have hbits := decodePass_bits s
  have hcap : (decodePass s.operands (startCommand s)).bits.length = s.operands.cap := by simp [hbits]
  rw [hcap] at h32 hfit
  rw [(unframe_tabulated hbits).1 h32] at hlen
  exact ⟨s.truncated_iff.not.2 (not_lt.2 (hlen ▸ hfit)), hlen⟩

/-- Where its footprint fits, DECODE does not depend on the memory sizes; its footprint in the payload memory is the
payload it decodes, if it has one. -/
theorem decodeWith_of_holds {cfg : Config} {s : State}
    (hgrid : Config.holds cfg.pixMemSize s.operands.gridBytes = true)
    (hpay : s.operands.invalidChannels = false → ¬ s.truncated →
      Config.holds cfg.payMemSize (spelled s.carrierBit 0 32) = true) :
    decodeWith cfg s = exec .decode s := by
  rw [exec_decode, execDecode, decodeWith, decodeWith, hgrid]
  cases hvalid : s.operands.invalidChannels with
  | true => rfl
  | false =>
    cases hu : unframeOp (decodePass s.operands (startCommand s)) with
    | error e => rfl
    | ok u =>
      obtain ⟨hfit, hlen⟩ := unframeOp_decodePass_ok hu
      simp only [hlen, hpay hvalid hfit]
      rfl

/-- With a valid channel count the capacity is at most the bytes of the grid (41_sequencer.md R103). -/
theorem Operands.cap_le_gridBytes {o : Operands} (h : o.k ≤ o.C) : o.cap ≤ o.gridBytes :=
  Nat.mul_le_mul_left (o.W * o.H) h

/-- Settles O48: a command is refused where a footprint does not fit and agrees where both do; a payload of a grid of
`pix` bytes at most has `(pix - 32) / 8` bytes at most. -/
theorem boundedMemoriesRefuseOrAgree : Obligations.BoundedMemoriesRefuseOrAgree := by
  unfold Obligations.BoundedMemoriesRefuseOrAgree
  intro policy pix pay s cfg length decodes
  have hdecodes : decodes ↔ s.operands.invalidChannels = false ∧ ¬ s.truncated := by
    rw [s.operands.validChannels_iff, s.truncated_iff, not_lt, and_assoc]; rfl
  have hagree (hgrid : s.operands.gridBytes ≤ pix) (hpay : decodes → length ≤ pay) :
      decodeWith cfg s = exec .decode s :=
    decodeWith_of_holds ((holds_some_iff _ _).2 hgrid) fun hvalid hfit =>
      (holds_some_iff _ _).2 (hpay (hdecodes.2 ⟨hvalid, hfit⟩))
  refine ⟨fun hout => ?encodeRefused, fun hgrid hpay => ?encodeAgrees, fun hout => ?gridRefused,
    fun hgrid hdec hout => ?payloadRefused, hagree, fun hgrid hpay => hagree hgrid ?payloadHeld⟩
  case encodeRefused =>
    refine encodeWith_of_not_fits (Bool.and_eq_false_iff.2 ?_)
    exact hout.imp (not_holds_some_iff _ _).2 (not_holds_some_iff _ _).2
  case encodeAgrees =>
    exact encodeWith_of_fits (Bool.and_eq_true_iff.2 ⟨(holds_some_iff _ _).2 hgrid, (holds_some_iff _ _).2 hpay⟩)
  case gridRefused => exact decodeWith_of_not_holds ((not_holds_some_iff _ _).2 hout)
  case payloadRefused =>
    obtain ⟨hvalid, hfit⟩ := hdecodes.1 hdec
    exact decodeWith_of_payload_not_holds ((holds_some_iff _ _).2 hgrid) hvalid hfit ((not_holds_some_iff _ _).2 hout)
  case payloadHeld =>
    rintro ⟨-, hkC, hlen⟩
    have hcap : s.operands.cap ≤ s.operands.gridBytes := Operands.cap_le_gridBytes hkC
    omega

end Sys2Proof.Machine
end

