-- ==== Sys2Proof/Proofs/EncodeInputs.lean ====
section
/-! PROOFS. ENCODE as a function of its inputs: what a completed ENCODE leaves, under either policy, and what the encoded
grid depends on. -/

namespace Sys2Proof.Machine

/-- What ENCODE leaves when it completes (42_bitplanewriter.md R125, R128). -/
structure Encoded (s t : State) : Prop where
  frame : t = { s with status := statusComplete, pixOut := t.pixOut }.withWorkingOf t
  pixOut : ∀ a, t.readByte .pixOut a =
    if a < s.operands.gridBytes then s.encodedByte s.operands.frameBits a else s.readByte .pixOut a

/-- Every ENCODE that succeeds, under any configuration, leaves the encoded grid. -/
theorem encoded_of_statusComplete {cfg : Config} {s t : State} (ht : encodeWith cfg s = .next t)
    (hstatus : t.status = statusComplete) : Encoded s t := by
  rcases encodeWith_cases cfg s with ⟨-, h⟩ | ⟨-, -, h⟩ | ⟨-, -, -, h⟩ | ⟨-, -, -, h⟩
  · simp [h] at ht
  · obtain rfl := Host.Outcome.next.inj (h.symm.trans ht)
    exact absurd hstatus (statusError_ne_statusComplete _)
  · obtain rfl := Host.Outcome.next.inj (h.symm.trans ht)
    exact absurd hstatus (statusError_ne_statusComplete _)
  · obtain rfl := Host.Outcome.next.inj (h.symm.trans ht)
    obtain ⟨hframe, hread, -⟩ := encodeDone_spec s
    exact ⟨hframe, hread⟩

theorem encodeWith_encoded {cfg : Config} {s : State} (hfit : encodeFits cfg s.operands = true)
    (hk : 1 ≤ s.operands.k) (hkC : s.operands.k ≤ s.operands.C)
    (hcap : cfg.capPolicy = .strict → s.operands.frameBits ≤ s.operands.cap) :
    ∃ t, encodeWith cfg s = .next t ∧ Encoded s t := by
  obtain ⟨t, ht, hstatus, -⟩ := encodeWith_completes hfit hk hkC hcap
  exact ⟨t, ht, encoded_of_statusComplete ht hstatus⟩

theorem exec_encode_encoded {s : State} (hk : 1 ≤ s.operands.k) (hkC : s.operands.k ≤ s.operands.C)
    (hcap : s.operands.frameBits ≤ s.operands.cap) : ∃ t, exec .encode s = .next t ∧ Encoded s t :=
  encodeWith_encoded (encodeFits_hardware _) hk hkC fun _ => hcap

namespace Encoded

variable {s t : State}

theorem status (h : Encoded s t) : t.status = statusComplete := by rw [h.frame]; rfl

theorem readByte_grid (h : Encoded s t) {a : Nat} (ha : a < s.operands.gridBytes) :
    t.readByte .pixOut a = s.encodedByte s.operands.frameBits a := by
  rw [h.pixOut, if_pos ha]

/-- ENCODE writes the grid of PIX_OUT and no other byte (42_bitplanewriter.md R128). -/
theorem readByte_of_not_grid (h : Encoded s t) {sp : Space} {a : Nat}
    (ha : sp ≠ .pixOut ∨ s.operands.gridBytes ≤ a) : t.readByte sp a = s.readByte sp a := by
  cases sp with
  | pixOut => rw [h.pixOut, if_neg (not_lt.2 (ha.resolve_left fun hne => hne rfl))]
  | _ => rw [h.frame]; rfl

/-- An unselected channel is copied (42_bitplanewriter.md R129 (a)). -/
theorem readByte_unselected (h : Encoded s t) {p n : Nat} (hp : p < s.operands.pixels) (hn : n < s.operands.C)
    (hkn : s.operands.k ≤ n) :
    t.readByte .pixOut (pixelAddress s.operands.C p n) = s.readByte .pixIn (pixelAddress s.operands.C p n) := by
  rw [h.readByte_grid (pixelAddress_lt hp hn), State.encodedByte_unselected hn hkn]

/-- The place of a position that the frame reaches takes the frame bit (42_bitplanewriter.md R125). -/
theorem readByte_seqPlace (h : Encoded s t) (hk : 1 ≤ s.operands.k) (hkC : s.operands.k ≤ s.operands.C) {i : Nat}
    (hi : i < s.operands.cap) (hF : i < s.operands.frameBits) :
    t.readByte .pixOut (seqPlace s.operands.C s.operands.k i).a =
      lsbSet (s.readByte .pixIn (seqPlace s.operands.C s.operands.k i).a)
        (frameBit s.operands.L (s.readByte .payIn) i) := by
  rw [h.readByte_grid (seqPlace_lt hk hkC hi), State.encodedByte_seqPlace hk hkC, if_pos hF]

end Encoded

/-- The encoded byte at channel `n` of pixel `p` (42_bitplanewriter.md R121). -/
theorem State.encodedByte_pixelAddress {s : State} {p n : Nat} (hn : n < s.operands.C) (limit : Nat) :
    s.encodedByte limit (pixelAddress s.operands.C p n) =
      if n < s.operands.k ∧ p * s.operands.k + n < limit then
        lsbSet (s.readByte .pixIn (pixelAddress s.operands.C p n))
          (frameBit s.operands.L (s.readByte .payIn) (p * s.operands.k + n))
      else s.readByte .pixIn (pixelAddress s.operands.C p n) := by
  obtain ⟨hdiv, hmod⟩ := pixelAddress_div_mod (p := p) hn
  simp only [State.encodedByte, hdiv, hmod]

/-- Settles O31: the encoded byte at each channel, and the frame of a completed ENCODE. -/
theorem encodeCompletesWithTheFrame : Obligations.EncodeCompletesWithTheFrame := by
  unfold Obligations.EncodeCompletesWithTheFrame
  intro s W H C k L hk hkC hcap
  obtain ⟨t, ht, henc⟩ := exec_encode_encoded (s := s) hk hkC hcap
  refine ⟨t, ht, fun p hp n hn => ?_, fun sp a => henc.readByte_of_not_grid, henc.frame⟩
  exact (henc.readByte_grid (pixelAddress_lt hp hn)).trans (State.encodedByte_pixelAddress hn _)

/-! PERMISSIVE. -/

/-- Settles O33: under PERMISSIVE the pass runs in either case, and a grid of no bytes has none to write. -/
theorem permissiveEncodeCutsTheFrame : Obligations.PermissiveEncodeCutsTheFrame := by
  unfold Obligations.PermissiveEncodeCutsTheFrame
  intro s hk hkC
  obtain ⟨t, ht, henc⟩ := encodeWith_encoded (cfg := ⟨.permissive, none, none⟩) (s := s) rfl hk hkC nofun
  refine ⟨t, ht, henc.status, fun hcap => ?strict, fun hover i hi => ?cut, fun p hp n hn hkn => ?unselected,
    fun hempty sp a => ?empty⟩
  case strict => exact (encodeWith_capPolicy hcap ⟨.permissive, none, none⟩ .strict).trans ht
  case cut => exact henc.readByte_seqPlace hk hkC hi (hi.trans hover)
  case unselected => exact henc.readByte_unselected hp hn hkn
  case empty =>
    have hgrid : s.operands.gridBytes = 0 := by rw [Operands.gridBytes, hempty, Nat.zero_mul]
    exact henc.readByte_of_not_grid (.inr (hgrid ▸ Nat.zero_le a))

/-- A grid that carries the first `cap` bits of a longer frame is truncated: it lacks a part of the length field or of
the payload that the field declares (43_bitplanereader.md R145). -/
theorem State.truncated_of_carries_cut_frame {u : State} {L : Word} {pay : Nat → Byte}
    (hover : u.operands.cap < frameLength L.toNat)
    (hbit : ∀ i < u.operands.cap, u.carrierBit i = frameBit L.toNat pay i) : u.truncated := by
  obtain h32 | h32 := Nat.lt_or_ge u.operands.cap 32
  · exact .inl h32
  · rw [State.truncated_iff, spelled_congr hbit h32, (spelled_frame L pay).1]
    exact hover

/-- Settles O34: the grid carries the first `cap` bits of the frame. -/
theorem cutFrameDoesNotDecode : Obligations.CutFrameDoesNotDecode := by
  unfold Obligations.CutFrameDoesNotDecode
  intro s t u hk hkC hover ht hpixels hC hkeq hcarrier
  obtain ⟨t', ht', henc⟩ := encodeWith_encoded (cfg := ⟨.permissive, none, none⟩) (s := s) rfl hk hkC nofun
  obtain rfl := Host.Outcome.next.inj (ht'.symm.trans ht)
  have hvalid : u.operands.invalidChannels = false :=
    u.operands.validChannels_iff.2 ⟨hkeq ▸ hk, hkeq ▸ hC ▸ hkC⟩
  have hcap : u.operands.cap = s.operands.cap := congrArg₂ (· * ·) hpixels hkeq
  have hbit : ∀ i < u.operands.cap, u.carrierBit i = frameBit s.plen.toNat (s.readByte .payIn) i := fun i hi => by
    rw [hcap] at hi
    rw [hcarrier i hi, henc.readByte_seqPlace hk hkC hi (hi.trans hover), lsbGet_lsbSet]
    rfl
  exact ⟨_, exec_decode_of_truncated hvalid (State.truncated_of_carries_cut_frame (hcap ▸ hover) hbit),
    statusError_truncatedFrame⟩

/-! What the encoded grid depends on. -/

/-- A frame bit depends on the payload below its length alone (40_bitframing.md R83). -/
theorem frameBit_congr {L : Nat} {pay pay' : Nat → Byte} (h : ∀ j < L, pay' j = pay j) {i : Nat}
    (hi : i < frameLength L) : frameBit L pay' i = frameBit L pay i := by
  rw [frameLength] at hi
  rw [frameBit, frameBit]
  split_ifs with h32
  · rfl
  · rw [h _ (by omega)]

/-- Two states encode the same byte at `a`, where they have the same operands and payload, and their cover bytes agree:
in the upper bits where the frame reaches `a`, and in all bits where it does not. -/
theorem State.encodedByte_congr {s s' : State} {a : Nat} (hC : s'.operands.C = s.operands.C)
    (hk : s'.operands.k = s.operands.k) (hL : s'.operands.L = s.operands.L)
    (hpay : ∀ j < s.operands.L, s'.readByte .payIn j = s.readByte .payIn j)
    (hupper : ∀ b, lsbSet (s'.readByte .pixIn a) b = lsbSet (s.readByte .pixIn a) b)
    (hcover : ¬ (a % s.operands.C < s.operands.k ∧
        a / s.operands.C * s.operands.k + a % s.operands.C < s.operands.frameBits) →
      s'.readByte .pixIn a = s.readByte .pixIn a) :
    s'.encodedByte s.operands.frameBits a = s.encodedByte s.operands.frameBits a := by
  simp only [State.encodedByte, hC, hk, hL]
  split_ifs with hreached
  · rw [hupper, frameBit_congr hpay hreached.2]
  · exact hcover hreached

/-- Two states that give ENCODE the same inputs: the pixel count, `C`, `k`, `L`, the grid in PIX_IN and the payload in
PAY_IN (42_bitplanewriter.md R130). -/
structure State.SameInputs (s s' : State) : Prop where
  pixels : s'.operands.pixels = s.operands.pixels
  C : s'.operands.C = s.operands.C
  k : s'.operands.k = s.operands.k
  L : s'.operands.L = s.operands.L
  grid : ∀ a < s.operands.gridBytes, s'.readByte .pixIn a = s.readByte .pixIn a
  payload : ∀ j < s.operands.L, s'.readByte .payIn j = s.readByte .payIn j

namespace State.SameInputs

variable {s s' : State}

theorem cap (h : s.SameInputs s') : s'.operands.cap = s.operands.cap := congrArg₂ (· * ·) h.pixels h.k

theorem gridBytes (h : s.SameInputs s') : s'.operands.gridBytes = s.operands.gridBytes :=
  congrArg₂ (· * ·) h.pixels h.C

theorem frameBits (h : s.SameInputs s') : s'.operands.frameBits = s.operands.frameBits := congrArg frameLength h.L

theorem invalidChannels (h : s.SameInputs s') : s'.operands.invalidChannels = s.operands.invalidChannels := by
  rw [Operands.invalidChannels, h.C, h.k, Operands.invalidChannels]

theorem exceedsCapacity (h : s.SameInputs s') : s'.operands.exceedsCapacity = s.operands.exceedsCapacity := by
  rw [Operands.exceedsCapacity, h.cap, h.frameBits, Operands.exceedsCapacity]

/-- Two completed ENCODEs of the same inputs leave the same grid. -/
theorem encoded_eq (h : s.SameInputs s') {t t' : State} (henc : Encoded s t) (henc' : Encoded s' t') {a : Nat}
    (ha : a < s.operands.gridBytes) : t'.readByte .pixOut a = t.readByte .pixOut a := by
  rw [henc.readByte_grid ha, henc'.readByte_grid (by rwa [h.gridBytes]), h.frameBits]
  exact State.encodedByte_congr h.C h.k h.L h.payload (fun b => by rw [h.grid a ha]) fun _ => h.grid a ha

end State.SameInputs

/-- Settles O37: the same inputs put both states in the same case of ENCODE. -/
theorem encodeDependsOnItsInputsOnly : Obligations.EncodeDependsOnItsInputsOnly := by
  unfold Obligations.EncodeDependsOnItsInputsOnly
  intro s s' hpixels hC hkeq hL hgrid hpay
  have hsame : s.SameInputs s' := ⟨hpixels, hC, hkeq, hL, hgrid, hpay⟩
  cases hinv : s.operands.invalidChannels with
  | true =>
    have hinv' : s'.operands.invalidChannels = true := hsame.invalidChannels.trans hinv
    exact ⟨_, _, exec_of_invalidChannels hinv (by simp), exec_of_invalidChannels hinv' (by simp), rfl,
      fun hs => absurd hs (statusError_ne_statusComplete _)⟩
  | false =>
    have hinv' : s'.operands.invalidChannels = false := hsame.invalidChannels.trans hinv
    cases hover : s.operands.exceedsCapacity with
    | true =>
      have hover' : s'.operands.exceedsCapacity = true := hsame.exceedsCapacity.trans hover
      exact ⟨_, _, exec_encode_of_exceedsCapacity hinv hover, exec_encode_of_exceedsCapacity hinv' hover', rfl,
        fun hs => absurd hs (statusError_ne_statusComplete _)⟩
    | false =>
      have hover' : s'.operands.exceedsCapacity = false := hsame.exceedsCapacity.trans hover
      obtain ⟨hk, hkC⟩ := s.operands.validChannels_iff.1 hinv
      obtain ⟨hk', hkC'⟩ := s'.operands.validChannels_iff.1 hinv'
      obtain ⟨t, ht, henc⟩ := exec_encode_encoded hk hkC (s.operands.fitsCapacity_iff.1 hover)
      obtain ⟨t', ht', henc'⟩ := exec_encode_encoded hk' hkC' (s'.operands.fitsCapacity_iff.1 hover')
      exact ⟨t, t', ht, ht', henc'.status.trans henc.status.symm, fun _ a ha => hsame.encoded_eq henc henc' ha⟩

/-- LSBSET of an encoded byte is LSBSET of its cover byte (41_sequencer.md R108 (d)). -/
theorem State.lsbSet_encodedByte (s : State) (limit a : Nat) (b : Bool) :
    lsbSet (s.encodedByte limit a) b = lsbSet (s.readByte .pixIn a) b := by
  obtain ⟨b', hb'⟩ := s.encodedByte_eq_lsbSet limit a
  rw [hb', lsbSet_lsbSet]

/-- Settles O38: where the second frame reaches, LSBSET hides the first frame, and where it does not, the first did not
reach either. -/
theorem encodingAgainLeavesNoTrace : Obligations.EncodingAgainLeavesNoTrace := by
  unfold Obligations.EncodingAgainLeavesNoTrace
  intro s t u u' hk hkC hcap ht hops hpixels hC hkeq hlonger hfit hfirst hcover hpay
  obtain ⟨t', ht', henc⟩ := exec_encode_encoded hk hkC hcap
  obtain rfl := Host.Outcome.next.inj (ht'.symm.trans ht)
  have hk2 : 1 ≤ u.operands.k := hkeq ▸ hk
  have hkC2 : u.operands.k ≤ u.operands.C := hkeq ▸ hC ▸ hkC
  have hgrid : u.operands.gridBytes = s.operands.gridBytes := congrArg₂ (· * ·) hpixels hC
  obtain ⟨v, hv, hencv⟩ := exec_encode_encoded hk2 hkC2 hfit
  obtain ⟨v', hv', hencv'⟩ := exec_encode_encoded (hops ▸ hk2) (hops ▸ hkC2) (hops ▸ hfit)
  refine ⟨v, v', hv, hv', hencv.status, hencv'.status, fun a ha => ?_⟩
  have hu : u.readByte .pixIn a = s.encodedByte s.operands.frameBits a := by
    rw [hfirst a ha, henc.readByte_grid ha]
  have hagree : u'.encodedByte u.operands.frameBits a = u.encodedByte u.operands.frameBits a := by
    refine State.encodedByte_congr (by rw [hops]) (by rw [hops]) (by rw [hops]) hpay (fun b => ?_) fun hnot => ?_
    · rw [hu, hcover a ha, State.lsbSet_encodedByte]
    · rw [hC, hkeq] at hnot
      rw [hu, hcover a ha]
      exact (if_neg fun hreached => hnot ⟨hreached.1, hreached.2.trans_le hlonger⟩).symm
  rw [hencv.readByte_grid (hgrid ▸ ha), hencv'.readByte_grid (hops ▸ hgrid ▸ ha), ← hops, hagree]

end Sys2Proof.Machine
end

