-- ==== Sys2Proof/Proofs/WordEncoding.lean ====
section
/-! PROOFS. The encoder against the decoder: a command word is its bits 31:1 and its OP bit. -/

namespace Sys2Proof

/-- A word is put together from its bits 31:1 and its bit 0. -/
theorem append_getLsbD_zero (c : Word) : c.extractLsb' 1 31 ++ BitVec.ofBool (c.getLsbD 0) = c := by
  refine BitVec.eq_of_getLsbD_eq fun j hj => ?_
  rw [BitVec.getLsbD_append]
  cases j with
  | zero => simp
  | succ j => simp [Nat.add_comm 1 j, show j < 31 by omega]

/-- Bits 31:1 of a word of an operation are the ignored ones it was encoded with (30_encoding.md R66). -/
theorem extractLsb'_append_ofBool (ignored : BitVec 31) (op : Bool) :
    (ignored ++ BitVec.ofBool op).extractLsb' 1 31 = ignored := by
  refine BitVec.eq_of_getLsbD_eq fun j hj => ?_
  rw [BitVec.getLsbD_extractLsb', BitVec.getLsbD_append]
  simp [hj, Nat.add_comm 1 j]

/-- A word of an operation: its OP bit under any ignored bits (30_encoding.md R66). -/
theorem encode_eq_some_iff {ignored : BitVec 31} {i : Instr} {c : Word} :
    encode ignored i = some c ↔ ∃ op, i.opBit = some op ∧ ignored ++ BitVec.ofBool op = c :=
  Option.map_eq_some_iff

/-- The decoder reads every word of an operation as that operation, by the lemma of each constructor. -/
theorem decodeWord_of_encode (i : Instr) : Laws.WordRoundTrip.Statement i := by
  cases i with
  | encode => exact Laws.WordRoundTrip.encode
  | decode => exact Laws.WordRoundTrip.decode
  | frame => exact Laws.WordRoundTrip.frame
  | unframe => exact Laws.WordRoundTrip.unframe
  | seq i => exact Laws.WordRoundTrip.seq i
  | lsbset v b => exact Laws.WordRoundTrip.lsbset v b
  | lsbget v => exact Laws.WordRoundTrip.lsbget v

/-- The command a word decodes to has the word's bit 0 as its OP bit (30_encoding.md R66). -/
theorem opBit_decodeWord (c : Word) : (decodeWord c).opBit = some (c.getLsbD 0) := by
  cases h : c.getLsbD 0 with
  | false => rw [decodeWord_of_bit_false h]; rfl
  | true => rw [decodeWord_of_bit_true h]; rfl

/-- The two commands are the operations that have an OP bit (30_encoding.md R74). -/
theorem opBit_isSome_iff (i : Instr) : i.opBit.isSome ↔ i = .encode ∨ i = .decode := by
  cases i <;> simp [Instr.opBit]

/-- Settles O13: both sides take a word apart into bits 31:1 and the OP bit. -/
theorem decodeAndEncodeAgree : Obligations.DecodeAndEncodeAgree := by
  unfold Obligations.DecodeAndEncodeAgree
  refine ⟨fun i ignored c h => ⟨decodeWord_of_encode i ignored c h, ?_⟩, fun c => ?_, fun i => ?_⟩
  · obtain ⟨op, -, rfl⟩ := encode_eq_some_iff.1 h
    exact extractLsb'_append_ofBool ignored op
  · exact encode_eq_some_iff.2 ⟨_, opBit_decodeWord c, append_getLsbD_zero c⟩
  · simp only [encode, Option.isSome_map, exists_const, opBit_isSome_iff]

/-- Settles O14: bit 0 of each word. -/
theorem sampleWordsDecode : Obligations.SampleWordsDecode := by
  unfold Obligations.SampleWordsDecode
  exact ⟨decodeWord_of_bit_false rfl, decodeWord_of_bit_true rfl, decodeWord_of_bit_false rfl,
    decodeWord_of_bit_true rfl, decodeWord_of_bit_true rfl, decodeWord_of_bit_false rfl⟩

end Sys2Proof
end

