-- ==== Sys2Proof/Proofs/Framing.lean ====
section
/-! PROOFS. FRAME and UNFRAME run on their own: the wire format, what UNFRAME reads of it, and that they are inverse. -/

namespace Sys2Proof.Machine

/-! FRAME. -/

theorem exec_frame (s : State) : exec .frame s = .next (frameOp s.plen s) := rfl

/-- FRAME leaves the frame in BITS (40_bitframing.md R83). -/
theorem frameOp_bits (s : State) : (frameOp s.plen s).bits =
    (List.range (frameLength s.plen.toNat)).map (frameBit s.plen.toNat (s.readByte .payIn)) := by
  rw [frameOp_spec]

theorem frameOp_bits_getElem? (s : State) {i : Nat} (hi : i < frameLength s.plen.toNat) :
    (frameOp s.plen s).bits[i]? = some (frameBit s.plen.toNat (s.readByte .payIn) i) := by
  rw [frameOp_bits, List.getElem?_map, List.getElem?_range hi]; rfl

/-- The first 32 positions of the frame are the length, most significant bit first (40_bitframing.md R82). -/
theorem frameBit_lengthField (L : Word) (pay : Nat → Byte) {i : Nat} (hi : i < 32) :
    frameBit L.toNat pay i = L.getLsbD (31 - i) := by
  rw [frameBit, if_pos hi]; rfl

/-- The positions after the length are the payload, byte by byte, most significant bit first (40_bitframing.md R82). -/
theorem frameBit_payload (L : Nat) (pay : Nat → Byte) (j : Nat) {r : Nat} (hr : r < 8) :
    frameBit L pay (32 + 8 * j + r) = (pay j).getLsbD (7 - r) := by
  rw [frameBit, if_neg (by omega), show (32 + 8 * j + r - 32) / 8 = j by omega,
    show (32 + 8 * j + r - 32) % 8 = r by omega]

/-- Settles O15: FRAME in closed form, at each of its positions. -/
theorem frameBuildsTheWireFormat : Obligations.FrameBuildsTheWireFormat := by
  unfold Obligations.FrameBuildsTheWireFormat
  intro s
  have hbit : ∀ i < 32 + 8 * s.plen.toNat,
      (frameOp s.plen s).bits[i]? = some (frameBit s.plen.toNat (s.readByte .payIn) i) :=
    fun i => frameOp_bits_getElem? s
  refine ⟨_, exec_frame s, ?length, fun i hi => ?lengthField, fun j hj r hr => ?payload, hbit, ?len, ?asm, ?frame⟩
  case length => rw [frameOp_bits, List.length_map, List.length_range]; rfl
  case lengthField => rw [hbit i (by omega), frameBit_lengthField _ _ hi]
  case payload => rw [hbit _ (by omega), frameBit_payload _ _ j hr]
  case len => rw [frameOp_spec]
  case asm =>
    have hzero : s.plen.toNat = 0 ↔ s.plen = 0 := BitVec.toNat_inj (y := 0)
    simp only [frameOp_spec, hzero]
  case frame => rw [frameOp_spec]

/-! UNFRAME. -/

/-- A payload byte within BITS spells the number UNFRAME reads (40_bitframing.md R85). -/
theorem valBE_payloadByte {bits : List Bool} {j : Nat} (h : 32 + 8 * j + 8 ≤ bits.length) :
    valBE ((bits.drop (32 + 8 * j)).take 8) = spelled (fun i => bits.getD i false) (32 + 8 * j) 8 := by
  have htab : bits = (List.range bits.length).map fun i => bits.getD i false :=
    List.ext_getElem (by simp) fun i hi _ => by simp [hi]
  exact (unframe_tabulated htab).2 j h

/-- What UNFRAME leaves when it succeeds (40_bitframing.md R85). -/
structure Unframed (s t : State) : Prop where
  len : t.len.toNat = spelled (fun i => s.bits.getD i false) 0 32
  payOut : ∀ j < t.len.toNat, (t.readByte .payOut j).toNat = spelled (fun i => s.bits.getD i false) (32 + 8 * j) 8
  unchanged : ∀ sp a, (sp ≠ .payOut ∨ t.len.toNat ≤ a) → t.readByte sp a = s.readByte sp a
  frame : t = { s with len := t.len, asm := t.asm, opResult := some (.length t.len), payOut := t.payOut }

theorem exec_unframe_of_complete {s : State} (h32 : 32 ≤ s.bits.length)
    (hlen : 32 + 8 * spelled (fun i => s.bits.getD i false) 0 32 ≤ s.bits.length) :
    ∃ t, exec .unframe s = .next t ∧ Unframed s t := by
  have hfield := valBE_lengthField h32
  have hok := unframeOp_of_frameLength_le h32 (by rw [hfield]; exact hlen)
  refine ⟨_, exec_unframe_of_ok hok, ?_⟩
  obtain ⟨-, hfit, hl, hframe, hread, -⟩ := unframeOp_ok hok
  generalize (List.range _).foldl extractPayloadByte _ = t at hfit hl hframe hread
  rw [frameLength] at hfit
  refine ⟨hl.trans hfield, fun j hj => ?_, fun sp a ha => ?_, by rw [hframe]⟩
  · have hj : j < t.len.toNat := hj
    refine (congrArg BitVec.toNat ((hread j).trans (if_pos hj))).trans ?_
    rw [valBE_payloadByte (by omega), BitVec.toNat_ofNat, Nat.mod_eq_of_lt (spelled_lt _ _ _)]
  · cases sp with
    | payOut => exact (hread a).trans (if_neg (not_lt.2 (ha.resolve_left fun hne => hne rfl)))
    | _ => rw [hframe]; rfl

/-- Settles O16: what UNFRAME leaves, field by field. -/
theorem unframeReadsLengthAndPayload : Obligations.UnframeReadsLengthAndPayload := by
  unfold Obligations.UnframeReadsLengthAndPayload
  intro s S length h32 hlen
  obtain ⟨t, ht, hunframed⟩ := exec_unframe_of_complete h32 hlen
  have hl : t.len.toNat = length := hunframed.len
  have hresult : t.opResult = some (.length t.len) := by rw [hunframed.frame]
  have hframe : t = { s with len := t.len, asm := t.asm, opResult := t.opResult, payOut := t.payOut } := by
    rw [hresult]; exact hunframed.frame
  rw [← hl]
  exact ⟨t, ht, rfl, hresult, hunframed.payOut, hunframed.unchanged, hframe⟩

/-- UNFRAME over too few bits raises TruncatedFrame (40_bitframing.md R86). -/
theorem exec_unframe_of_truncated {s : State}
    (h : s.bits.length < 32 ∨ s.bits.length < 32 + 8 * spelled (fun i => s.bits.getD i false) 0 32) :
    exec .unframe s = .next (raise .truncatedFrame s) := by
  have herror : unframeOp s = .error .truncatedFrame := by
    refine (unframeOp_error_iff s _).2 ⟨rfl, ?_⟩
    obtain h32 | h32 := Nat.lt_or_ge s.bits.length 32
    · exact .inl h32
    · rw [valBE_lengthField h32]
      exact h
  rw [exec_unframe, execUnframe, herror]

/-- Settles O17: the error writes STATUS and the working state alone. -/
theorem unframeOfTooFewBitsIsTruncated : Obligations.UnframeOfTooFewBitsIsTruncated := by
  unfold Obligations.UnframeOfTooFewBitsIsTruncated
  intro s h
  refine ⟨_, exec_unframe_of_truncated h, ?_, raise_readByte _ s⟩
  rw [← statusError_truncatedFrame]
  rfl

/-! UNFRAME after FRAME. -/

/-- The frame with anything appended still holds the frame at its positions. -/
theorem frameOp_bits_append_getD (s : State) (T : List Bool) {i : Nat} (hi : i < frameLength s.plen.toNat) :
    ((frameOp s.plen s).bits ++ T).getD i false = frameBit s.plen.toNat (s.readByte .payIn) i := by
  have hlt : i < (frameOp s.plen s).bits.length := by rwa [frameOp_bits, List.length_map, List.length_range]
  rw [List.getD_append _ _ _ _ hlt, List.getD_eq_getElem?_getD, frameOp_bits_getElem? s hi]
  rfl

/-- A number that the frame spells, the frame with anything appended spells (40_bitframing.md R88). -/
theorem spelled_frameOp_bits_append (s : State) (T : List Bool) {start width : Nat}
    (h : start + width ≤ frameLength s.plen.toNat) :
    spelled (fun i => ((frameOp s.plen s).bits ++ T).getD i false) start width =
      spelled (frameBit s.plen.toNat (s.readByte .payIn)) start width :=
  spelled_congr (fun _ => frameOp_bits_append_getD s T) h

/-- UNFRAME after FRAME, with anything appended, returns the length and the payload (40_bitframing.md R90). -/
theorem exec_unframe_frameOp (s : State) (T : List Bool) :
    ∃ u, exec .unframe { frameOp s.plen s with bits := (frameOp s.plen s).bits ++ T } = .next u ∧
      u.opResult = some (.length s.plen) ∧ u.status = s.status ∧
      ∀ j < s.plen.toNat, u.readByte .payOut j = s.readByte .payIn j := by
  obtain ⟨hlength, hbyte⟩ := spelled_frame s.plen (s.readByte .payIn)
  have hF : frameLength s.plen.toNat = 32 + 8 * s.plen.toNat := rfl
  have hfield := (spelled_frameOp_bits_append s T (start := 0) (width := 32) (by omega)).trans hlength
  have hlen : ((frameOp s.plen s).bits ++ T).length = 32 + 8 * s.plen.toNat + T.length := by
    rw [List.length_append, frameOp_bits, List.length_map, List.length_range, hF]
  obtain ⟨u, hu, hunframed⟩ := exec_unframe_of_complete
    (s := { frameOp s.plen s with bits := (frameOp s.plen s).bits ++ T }) (by simp only [hlen]; omega)
    (by simp only [hfield, hlen]; omega)
  have hul : u.len = s.plen := BitVec.eq_of_toNat_eq (hunframed.len.trans hfield)
  refine ⟨u, hu, ?_, ?_, fun j hj => BitVec.eq_of_toNat_eq ?_⟩
  · rw [hunframed.frame, hul]
  · rw [hunframed.frame, frameOp_spec]
  · rw [hunframed.payOut j (by rwa [hul]), ← hbyte j]
    exact spelled_frameOp_bits_append s T (by omega)

/-- FRAME is injective: BITS spells the length and each payload byte (40_bitframing.md R90). -/
theorem frameOp_bits_injective {s s' : State} (h : (frameOp s.plen s).bits = (frameOp s'.plen s').bits) :
    s.plen = s'.plen ∧ ∀ j < s.plen.toNat, s.readByte .payIn j = s'.readByte .payIn j := by
  have hlength := congrArg List.length h
  simp only [frameOp_bits, List.length_map, List.length_range, frameLength] at hlength
  have hplen : s.plen = s'.plen := BitVec.eq_of_toNat_eq (by omega)
  have hbit : ∀ i < frameLength s.plen.toNat,
      frameBit s.plen.toNat (s.readByte .payIn) i = frameBit s.plen.toNat (s'.readByte .payIn) i := fun i hi => by
    have hi' := frameOp_bits_getElem? s' (hplen ▸ hi)
    rw [← h, frameOp_bits_getElem? s hi, ← hplen] at hi'
    exact Option.some.inj hi'
  refine ⟨hplen, fun j hj => BitVec.eq_of_toNat_eq ?_⟩
  rw [← (spelled_frame s.plen _).2 j, ← (spelled_frame s.plen _).2 j]
  exact spelled_congr hbit (by rw [frameLength]; omega)

/-- Settles O19: the frame spells its length and payload, whatever follows it, and so do equal frames. -/
theorem frameThenUnframeIsIdentity : Obligations.FrameThenUnframeIsIdentity := by
  unfold Obligations.FrameThenUnframeIsIdentity
  refine ⟨fun s T => ?_, fun s s' t t' ht ht' hbits => ?_⟩
  · obtain ⟨u, hu, hresult, hstatus, hpay⟩ := exec_unframe_frameOp s T
    exact ⟨_, u, exec_frame s, hu, hresult, hstatus, hpay⟩
  · obtain rfl := Host.Outcome.next.inj ((exec_frame s).symm.trans ht)
    obtain rfl := Host.Outcome.next.inj ((exec_frame s').symm.trans ht')
    exact frameOp_bits_injective hbits

end Sys2Proof.Machine
end

