-- ==== Sys2Proof/Proofs/Sequencer.lean ====
section
/-! PROOFS. SEQ, LSBSET and LSBGET run on their own, and SEQ against POS. -/

namespace Sys2Proof.Machine

/-! SEQ. -/

theorem exec_seq (i : Nat) (s : State) : exec (.seq i) s = execSeq i s := rfl

/-- SEQ at a position that exists answers its place and writes nothing else (41_sequencer.md R101). -/
theorem exec_seq_of_lt_cap {s : State} {i : Nat} (hk : 1 ≤ s.operands.k) (hkC : s.operands.k ≤ s.operands.C)
    (hi : i < s.operands.cap) :
    exec (.seq i) s = .next { s with opResult := some (.place (seqPlace s.operands.C s.operands.k i).p
      (seqPlace s.operands.C s.operands.k i).n (seqPlace s.operands.C s.operands.k i).a) } := by
  have hvalid := s.operands.validChannels_iff.2 ⟨hk, hkC⟩
  rw [exec_seq, execSeq, hvalid, decide_eq_false (not_le.2 hi)]
  rfl

/-- Settles O20: the place of a position that exists. -/
theorem seqAnswersThePlace : Obligations.SeqAnswersThePlace := by
  unfold Obligations.SeqAnswersThePlace
  intro s i C k hk hkC hi
  exact exec_seq_of_lt_cap hk hkC hi

/-- Settles O21: the channel count check or the capacity check tells that the position does not exist. -/
theorem seqOfNoPositionRunsWithAFreeResult : Obligations.SeqOfNoPositionRunsWithAFreeResult := by
  unfold Obligations.SeqOfNoPositionRunsWithAFreeResult
  intro s i hnone
  have hout : (s.operands.invalidChannels || decide (s.operands.cap ≤ i)) = true := by
    rw [Bool.or_eq_true, Operands.invalidChannels_iff, decide_eq_true_iff]
    exact or_assoc.2 hnone
  exact ⟨_, _, _, if_pos hout⟩

/-! SEQ against POS. -/

/-- POS of the place of a position is the position (41_sequencer.md R101). -/
theorem posOf_seqPlace {k : Nat} (hk : 1 ≤ k) (C i : Nat) :
    posOf k (seqPlace C k i).p (seqPlace C k i).n = some i :=
  (if_pos (Nat.mod_lt i hk)).trans (congrArg some (Nat.div_add_mod' i k))

/-- SEQ is increasing in the address: the next position is the next channel, or channel 0 of the next pixel
(41_sequencer.md R101). -/
theorem seqPlace_lt_seqPlace {C k i j : Nat} (hk : 1 ≤ k) (hkC : k ≤ C) (hij : i < j) :
    (seqPlace C k i).a < (seqPlace C k j).a := by
  show i / k * C + i % k < j / k * C + j % k
  obtain hpixel | hpixel := (Nat.div_le_div_right (c := k) hij.le).eq_or_lt
  · have hi := Nat.div_add_mod' i k
    have hj := Nat.div_add_mod' j k
    rw [hpixel] at hi ⊢
    omega
  · calc i / k * C + i % k < (i / k + 1) * C := by
          rw [Nat.succ_mul]; exact Nat.add_lt_add_left ((Nat.mod_lt i hk).trans_le hkC) _
      _ ≤ j / k * C := Nat.mul_le_mul_right C hpixel
      _ ≤ j / k * C + j % k := Nat.le_add_right _ _

/-- With every channel selected the address is the position (41_sequencer.md R101). -/
theorem seqPlace_all_selected (k i : Nat) : (seqPlace k k i).a = i := Nat.div_add_mod' i k

/-- With one channel selected the address is that of channel 0 of pixel `i` (41_sequencer.md R101). -/
theorem seqPlace_one_selected (C i : Nat) : (seqPlace C 1 i).a = i * C := by
  show i / 1 * C + i % 1 = i * C
  rw [Nat.div_one, Nat.mod_one, Nat.add_zero]

/-- Settles O22: division with remainder by `k`, and its inverse. -/
theorem seqAndPosAreInverse : Obligations.SeqAndPosAreInverse := by
  unfold Obligations.SeqAndPosAreInverse
  intro N C k hk hkC
  refine ⟨fun i hi => ⟨Nat.div_lt_of_lt_mul (by rwa [Nat.mul_comm]), Nat.mod_lt i hk, rfl, posOf_seqPlace hk C i⟩,
    fun p hp n hn => ⟨fun hsel => ⟨if_pos hsel, pixelAddress_lt hp hsel, seqPlace_pos hsel⟩,
      fun hunsel => if_neg (not_lt.2 hunsel)⟩,
    fun i j => seqPlace_lt_seqPlace hk hkC, ?allSelected, ?oneSelected, ?exec⟩
  case allSelected =>
    rintro rfl i
    exact seqPlace_all_selected k i
  case oneSelected =>
    rintro rfl i
    exact seqPlace_one_selected C i
  case exec =>
    rintro s i rfl rfl rfl hi
    exact ⟨_, exec_seq_of_lt_cap hk hkC hi, rfl, rfl⟩

/-! LSBSET and LSBGET. -/

theorem toNat_lsbGet (v : Byte) : (lsbGet v).toNat = v.toNat % 2 := by
  rw [lsbGet_eq_mod_two]
  obtain h | h := Nat.mod_two_eq_zero_or_one v.toNat <;> rw [h] <;> rfl

/-- LSBSET as a number: the lowest bit is taken off and `b` is put in its place (41_sequencer.md R106). -/
theorem toNat_lsbSet (v : Byte) (b : Bool) : (lsbSet v b).toNat = v.toNat - v.toNat % 2 + b.toNat := by
  have hv := toNat_eq_upper_add_lsb v
  have hr := toNat_eq_upper_add_lsb (lsbSet v b)
  rw [lsbSet_and_upper, lsbGet_lsbSet] at hr
  rw [toNat_lsbGet] at hv
  omega

/-- Settles O23: the result as a number, and the two values of `b`. -/
theorem lsbSetReplacesTheLowestBit : Obligations.LsbSetReplacesTheLowestBit := by
  unfold Obligations.LsbSetReplacesTheLowestBit
  intro v b s
  have hr := toNat_lsbSet v b
  have hsame : b = v.getLsbD 0 → lsbSet v b = v := fun h => h ▸ lsbSet_lsbGet v
  refine ⟨lsbSet v b, rfl, rfl, hr, ?_, lsbGet_lsbSet v b, hsame, ?_⟩
  · have := b.toNat_le
    omega
  · cases b <;> simp only [Bool.toNat_false, Bool.toNat_true, reduceCtorEq, and_true, and_false, iff_false] at hr ⊢ <;>
      omega

/-- The lowest bit as a mask (41_sequencer.md R107). -/
theorem lsbGet_eq_mask (v : Byte) : lsbGet v = (v &&& 0x01#8 == 0x01#8) := by
  rw [lsbGet, BitVec.and_one_eq_setWidth_ofBool_getLsbD]
  cases v.getLsbD 0 <;> rfl

/-- Settles O24: the lowest bit, as a remainder and as a mask. -/
theorem lsbGetReadsTheLowestBit : Obligations.LsbGetReadsTheLowestBit := by
  unfold Obligations.LsbGetReadsTheLowestBit
  exact fun v s => ⟨lsbGet v, rfl, toNat_lsbGet v, lsbGet_eq_mask v⟩

end Sys2Proof.Machine
end
